-- ==== Sys2Proof/Word.lean ====
section
/-! DEFINITION. The word of SISA-I, the numbers that select a register or a port (spec 00_scope.md R3, R4), and the type of a bank of
registers or ports. -/

namespace Sys2Proof

/-- The only data size and the unit of addressing: 16 bits, bit 0 the least significant (00_scope.md R3, R4; 10_state.md R46). -/
abbrev Word := BitVec 16

/-- The number of a general register, R0 to R7 (10_state.md R32). It selects; nothing is computed with it. -/
abbrev Reg := Fin 8

/-- The number of an input or output port, 0 to 255 (20_memory.md R68). It selects; nothing is computed with it. -/
abbrev Port := Fin 256

/-- `n` like elements numbered from 0, as 10_state.md R30 writes its arrays of registers and ports. It is held as a list, so that
Lean's kernel compares two banks in one pass. -/
structure Bank (α : Type) (n : Nat) where
  elements : List α
  complete : elements.length = n
  deriving DecidableEq, Repr

/-- The bank whose every element is `v`. -/
def Bank.fill {α : Type} (n : Nat) (v : α) : Bank α n := ⟨List.replicate n v, List.length_replicate⟩

end Sys2Proof
end

