-- ==== Sys2Proof/Config.lean ====
section
/-! DEFINITION. What SISA-I leaves to an implementation or to the environment (spec 00_scope.md R3, 92_eei_decisions.md): the
parameters with a choice (structure `Config`, held in the state, so that a claim can be about either value), and the free values of
the environment behind the input ports. -/

namespace Sys2Proof

/-- The parameter NOT_BBB_NONZERO (30_encoding.md R105, D2): what a word `0000 ddd aaa 011 bbb` with bbb not 000 is. -/
inductive NotBbbNonzero where
  /-- The spec's default: an unused encoding. -/
  | reserved
  /-- The other reading: NOT Rd, Ra, the field bbb ignored. -/
  | ignore
  deriving DecidableEq, Repr

/-- The parameters of the spec that have more than one value a model may offer. No step changes them. -/
structure Config where
  /-- IO_PORTS_ALIASED (20_memory.md R69, D10), port by port: whether INPUT[P] and OUTPUT[P] are one register. -/
  ioPortsAliased : Bank Bool 256
  /-- NOT_BBB_NONZERO (30_encoding.md R105, D2). -/
  notBbbNonzero : NotBbbNonzero
  deriving DecidableEq, Repr

/-- The spec's defaults: two separate I/O spaces (10_state.md R42) and NOT only with bbb = 000 (30_encoding.md R105). -/
def Config.default : Config where
  ioPortsAliased := Bank.fill 256 false
  notBbbNonzero := .reserved

/-- FREE VALUE (log 7): what the environment puts into input port `p` at its turn number `turn`, after the program has made the
outputs `outputs`; `none` where it leaves the port as it is. It has no body: the spec puts it "under no law" (20_memory.md R76). -/
opaque Config.environment (turn : Nat) (outputs : List (Port × Word)) (p : Port) : Option Word

/-- DESIGN CHOICE (log 2, unsafe): what a memory word that the image does not mention and nothing has written reads as. The spec
gives no value (10_state.md R48, D5). -/
def Config.unlistedWord : Word := 0x0000#16

end Sys2Proof
end

