-- ==== Sys2Proof/Syntax.lean ====
section
/-! DEFINITION. The 22 instructions of SISA-I (spec 30_encoding.md R99), one constructor per row of spec/opcode_table.json. Operands
are what the instruction word holds: register numbers, the raw field N6 or N8, a port number. -/

namespace Sys2Proof

/-- The mnemonics of 30_encoding.md R99, in the table's order (`inp` is IN, a word Lean keeps for itself). -/
inductive Mnemonic where
  | and | or | xor | not | add | sub | sha | shl
  | cmplt | cmple | cmpeq | cmpltu | cmpleu
  | addi | ld | st | movi | movhi | bz | bnz | inp | out
  deriving DecidableEq, Repr

/-- An instruction of SISA-I. Every value of every operand is legal (30_encoding.md R107), so every term is well formed. `d` is the
number of Rd, `a` of Ra, `b` of Rb (00_scope.md R14). -/
inductive Instr where
  /-- AND Rd, Ra, Rb (40_arith_logic.md R131). -/
  | and (d a b : Reg)
  /-- OR Rd, Ra, Rb (40_arith_logic.md R132). -/
  | or (d a b : Reg)
  /-- XOR Rd, Ra, Rb (40_arith_logic.md R133). -/
  | xor (d a b : Reg)
  /-- NOT Rd, Ra (40_arith_logic.md R134). -/
  | not (d a : Reg)
  /-- ADD Rd, Ra, Rb (40_arith_logic.md R135). -/
  | add (d a b : Reg)
  /-- SUB Rd, Ra, Rb (40_arith_logic.md R136). -/
  | sub (d a b : Reg)
  /-- SHA Rd, Ra, Rb (40_arith_logic.md R137). -/
  | sha (d a b : Reg)
  /-- SHL Rd, Ra, Rb (40_arith_logic.md R138). -/
  | shl (d a b : Reg)
  /-- CMPLT Rd, Ra, Rb (42_compare.md R156). -/
  | cmplt (d a b : Reg)
  /-- CMPLE Rd, Ra, Rb (42_compare.md R157). -/
  | cmple (d a b : Reg)
  /-- CMPEQ Rd, Ra, Rb (42_compare.md R158). -/
  | cmpeq (d a b : Reg)
  /-- CMPLTU Rd, Ra, Rb (42_compare.md R159). -/
  | cmpltu (d a b : Reg)
  /-- CMPLEU Rd, Ra, Rb (42_compare.md R160). -/
  | cmpleu (d a b : Reg)
  /-- ADDI Rd, Ra, N6 (41_addi.md R150). -/
  | addi (d a : Reg) (n6 : BitVec 6)
  /-- LD Rd, N6(Ra) (43_load_store.md R171). -/
  | ld (d a : Reg) (n6 : BitVec 6)
  /-- ST N6(Ra), Rb (43_load_store.md R172). -/
  | st (b a : Reg) (n6 : BitVec 6)
  /-- MOVI Rd, N8 (45_move_immediate.md R191). -/
  | movi (d : Reg) (n8 : BitVec 8)
  /-- MOVHI Rd, N8 (45_move_immediate.md R192). -/
  | movhi (d : Reg) (n8 : BitVec 8)
  /-- BZ Rb, N8 (44_branch.md R181). -/
  | bz (b : Reg) (n8 : BitVec 8)
  /-- BNZ Rb, N8 (44_branch.md R182). -/
  | bnz (b : Reg) (n8 : BitVec 8)
  /-- IN Rd, port (46_io.md R201). -/
  | inp (d : Reg) (p : Port)
  /-- OUT port, Rb (46_io.md R202). -/
  | out (b : Reg) (p : Port)
  deriving DecidableEq, Repr

/-- The mnemonic of an instruction. -/
def Instr.mnemonic : Instr → Mnemonic
  | .and _ _ _ => .and
  | .or _ _ _ => .or
  | .xor _ _ _ => .xor
  | .not _ _ => .not
  | .add _ _ _ => .add
  | .sub _ _ _ => .sub
  | .sha _ _ _ => .sha
  | .shl _ _ _ => .shl
  | .cmplt _ _ _ => .cmplt
  | .cmple _ _ _ => .cmple
  | .cmpeq _ _ _ => .cmpeq
  | .cmpltu _ _ _ => .cmpltu
  | .cmpleu _ _ _ => .cmpleu
  | .addi _ _ _ => .addi
  | .ld _ _ _ => .ld
  | .st _ _ _ => .st
  | .movi _ _ => .movi
  | .movhi _ _ => .movhi
  | .bz _ _ => .bz
  | .bnz _ _ => .bnz
  | .inp _ _ => .inp
  | .out _ _ => .out

/-- The destination register of an instruction; `none` for ST, OUT, BZ and BNZ, which write no general register
(10_state.md R33). -/
def Instr.dest? : Instr → Option Reg
  | .and d _ _ | .or d _ _ | .xor d _ _ | .not d _ | .add d _ _ | .sub d _ _ | .sha d _ _ | .shl d _ _ => some d
  | .cmplt d _ _ | .cmple d _ _ | .cmpeq d _ _ | .cmpltu d _ _ | .cmpleu d _ _ => some d
  | .addi d _ _ | .ld d _ _ | .movi d _ | .movhi d _ | .inp d _ => some d
  | .st _ _ _ | .bz _ _ | .bnz _ _ | .out _ _ => none

end Sys2Proof
end

