-- ==== Sys2Proof/WellFormed.lean ====
section
/-! DEFINITION. What is well formed. Every term of `Instr` is (30_encoding.md R107: "All register numbers 0 to 7 and all values of N6
and N8 are legal in every instruction that has the field"), the bounds being in the operands' types; a WORD is well formed when
a row of the table of 30_encoding.md R100 matches it. The table stands here on its own, apart from the decoder, so that the two can
be held against each other. -/

namespace Sys2Proof

/-- One row of the table of 30_encoding.md R100: a word `I` encodes the instruction when `I &&& mask = pattern`. -/
structure TableRow where
  mnemonic : Mnemonic
  mask : Word
  pattern : Word
  deriving DecidableEq, Repr

/-- The table of 30_encoding.md R100, row by row. -/
def opcodeTable : List TableRow :=
  [⟨.and, 0xF038#16, 0x0000#16⟩, ⟨.or, 0xF038#16, 0x0008#16⟩, ⟨.xor, 0xF038#16, 0x0010#16⟩, ⟨.not, 0xF03F#16, 0x0018#16⟩,
   ⟨.add, 0xF038#16, 0x0020#16⟩, ⟨.sub, 0xF038#16, 0x0028#16⟩, ⟨.sha, 0xF038#16, 0x0030#16⟩, ⟨.shl, 0xF038#16, 0x0038#16⟩,
   ⟨.cmplt, 0xF038#16, 0x1000#16⟩, ⟨.cmple, 0xF038#16, 0x1008#16⟩, ⟨.cmpeq, 0xF038#16, 0x1018#16⟩,
   ⟨.cmpltu, 0xF038#16, 0x1020#16⟩, ⟨.cmpleu, 0xF038#16, 0x1028#16⟩,
   ⟨.addi, 0xF000#16, 0x2000#16⟩, ⟨.ld, 0xF000#16, 0x3000#16⟩, ⟨.st, 0xF000#16, 0x4000#16⟩,
   ⟨.movi, 0xF100#16, 0x5000#16⟩, ⟨.movhi, 0xF100#16, 0x5100#16⟩, ⟨.bz, 0xF100#16, 0x6000#16⟩, ⟨.bnz, 0xF100#16, 0x6100#16⟩,
   ⟨.inp, 0xF100#16, 0x7000#16⟩, ⟨.out, 0xF100#16, 0x7100#16⟩]

/-- Does the word carry the fixed bits of the row? -/
def TableRow.fits (row : TableRow) (w : Word) : Bool := w &&& row.mask == row.pattern

/-- 30_encoding.md R103: the opcode is one of 1000 to 1111. -/
def Word.opcodeUnused (w : Word) : Bool := w.getLsbD 15

/-- 30_encoding.md R104: opcode 0001 with the function 010, 110 or 111. -/
def Word.compareFunctionUnused (w : Word) : Bool :=
  let masked := w &&& 0xF038#16
  masked == 0x1010#16 || masked == 0x1030#16 || masked == 0x1038#16

/-- 30_encoding.md R105: opcode 0000 with the function of NOT and bbb not 000. -/
def Word.notSourceNonzero (w : Word) : Bool := w &&& 0xF038#16 == 0x0018#16 && w &&& 0x0007#16 != 0#16

/-- A well-formed instruction word: none of the unused encodings of 30_encoding.md R103 to R105 (the last only under the spec's
default of NOT_BBB_NONZERO). -/
def Word.wellFormed (notBbb : NotBbbNonzero) (w : Word) : Bool :=
  !w.opcodeUnused && !w.compareFunctionUnused && (notBbb == .ignore || !w.notSourceNonzero)

end Sys2Proof
end

