-- ==== Sys2Proof/Decode.lean ====
section
/-! DEFINITION. The decoder of SISA-I (spec 30_encoding.md R91 to R108) and the encoder (R116). An instruction is one word
(R90), so there is no byte order and no length to find. -/

namespace Sys2Proof

/-- Why a word encodes no instruction, by name (30_encoding.md R103 to R105). -/
inductive Reserved where
  /-- R103: the opcode, one of 1000 to 1111. -/
  | opcode (c : BitVec 4)
  /-- R104: under opcode 0001, the function 010, 110 or 111. -/
  | compareFunction (f : BitVec 3)
  /-- R105: the function of NOT with this bbb, which is not 000. -/
  | notSource (b : BitVec 3)
  deriving DecidableEq, Repr

/-- The register a 3-bit field names (30_encoding.md R95). -/
def Reg.ofBits (field : BitVec 3) : Reg := ⟨field.toNat, field.isLt⟩

/-- The 3-bit field that names a register (30_encoding.md R95). -/
def Reg.bits (r : Reg) : BitVec 3 := BitVec.ofNat 3 r.val

/-- The port an N8 field names, "tal cual" (30_encoding.md R98). -/
def Port.ofBits (field : BitVec 8) : Port := ⟨field.toNat, field.isLt⟩

/-- The N8 field that names a port (30_encoding.md R98). -/
def Port.bits (p : Port) : BitVec 8 := BitVec.ofNat 8 p.val

/-- cccc = I<15..12> (30_encoding.md R91). -/
def Word.opcodeField (w : Word) : BitVec 4 := w.extractLsb' 12 4

/-- I<11..9>: ddd, or bbb in ST, BZ, BNZ and OUT (30_encoding.md R95). -/
def Word.regFieldD (w : Word) : BitVec 3 := w.extractLsb' 9 3

/-- aaa = I<8..6> (30_encoding.md R95). -/
def Word.regFieldA (w : Word) : BitVec 3 := w.extractLsb' 6 3

/-- bbb = I<2..0> of format 3-Reg (30_encoding.md R92). -/
def Word.regFieldB (w : Word) : BitVec 3 := w.extractLsb' 0 3

/-- fff = I<5..3> of format 3-Reg (30_encoding.md R92, R96). -/
def Word.functionField (w : Word) : BitVec 3 := w.extractLsb' 3 3

/-- e = I<8> of format 1-Reg (30_encoding.md R96). -/
def Word.extensionBit (w : Word) : Bool := w.getLsbD 8

/-- N6 = I<5..0> (30_encoding.md R97). -/
def Word.n6Field (w : Word) : BitVec 6 := w.extractLsb' 0 6

/-- N8 = I<7..0> (30_encoding.md R98). -/
def Word.n8Field (w : Word) : BitVec 8 := w.extractLsb' 0 8

/-- Opcode 0000 (30_encoding.md R99, R108), with the parameter of R105 for NOT. -/
def decodeArithLogic (notBbb : NotBbbNonzero) (f : BitVec 3) (d a : Reg) (bField : BitVec 3) : Except Reserved Instr :=
  match f with
  | 0b000#3 => .ok (.and d a (Reg.ofBits bField))
  | 0b001#3 => .ok (.or d a (Reg.ofBits bField))
  | 0b010#3 => .ok (.xor d a (Reg.ofBits bField))
  | 0b011#3 => if bField = 0#3 ∨ notBbb = .ignore then .ok (.not d a) else .error (.notSource bField)
  | 0b100#3 => .ok (.add d a (Reg.ofBits bField))
  | 0b101#3 => .ok (.sub d a (Reg.ofBits bField))
  | 0b110#3 => .ok (.sha d a (Reg.ofBits bField))
  | _ => .ok (.shl d a (Reg.ofBits bField)) -- 0b111, the one function left

/-- Opcode 0001 (30_encoding.md R99, R104, R108). -/
def decodeCompare (f : BitVec 3) (d a b : Reg) : Except Reserved Instr :=
  match f with
  | 0b000#3 => .ok (.cmplt d a b)
  | 0b001#3 => .ok (.cmple d a b)
  | 0b011#3 => .ok (.cmpeq d a b)
  | 0b100#3 => .ok (.cmpltu d a b)
  | 0b101#3 => .ok (.cmpleu d a b)
  | unused => .error (.compareFunction unused)

/-- The decoder of 30_encoding.md R108: the instruction a word encodes, or the name of the unused encoding it is. -/
def decode (notBbb : NotBbbNonzero) (w : Word) : Except Reserved Instr :=
  let d := Reg.ofBits w.regFieldD
  let a := Reg.ofBits w.regFieldA
  match w.opcodeField with
  | 0b0000#4 => decodeArithLogic notBbb w.functionField d a w.regFieldB
  | 0b0001#4 => decodeCompare w.functionField d a (Reg.ofBits w.regFieldB)
  | 0b0010#4 => .ok (.addi d a w.n6Field)
  | 0b0011#4 => .ok (.ld d a w.n6Field)
  | 0b0100#4 => .ok (.st d a w.n6Field)
  | 0b0101#4 => .ok (if w.extensionBit then .movhi d w.n8Field else .movi d w.n8Field)
  | 0b0110#4 => .ok (if w.extensionBit then .bnz d w.n8Field else .bz d w.n8Field)
  | 0b0111#4 => .ok (if w.extensionBit then .out d (Port.ofBits w.n8Field) else .inp d (Port.ofBits w.n8Field))
  | unused => .error (.opcode unused)

/-- The word whose bits are the lowest `nbits` of `n`, bit 0 the least significant. -/
def wordOfBits (nbits n : Nat) : Word := BitVec.ofNat 16 (n % 2 ^ nbits)

/-- The instruction the decoder reads from an instruction whose bits are `w`, numbered as spec/opcode_table.json numbers them,
under the spec's default parameters. Every row of the table is one word of 16 bits. -/
def decodeTableWord (nbits w : Nat) : Option Instr :=
  (decode Config.default.notBbbNonzero (wordOfBits nbits w)).toOption

/-- Format 3-Reg, `cccc ddd aaa fff bbb` (30_encoding.md R92, R116). -/
def word3Reg (c : BitVec 4) (d a : Reg) (f b : BitVec 3) : Word := c ++ d.bits ++ a.bits ++ f ++ b

/-- Format 2-Reg, `cccc ddd aaa nnnnnn` or `cccc bbb aaa nnnnnn` (30_encoding.md R93, R116). -/
def word2Reg (c : BitVec 4) (r a : Reg) (n6 : BitVec 6) : Word := c ++ r.bits ++ a.bits ++ n6

/-- Format 1-Reg, `cccc ddd e nnnnnnnn` or `cccc bbb e nnnnnnnn` (30_encoding.md R94, R116). -/
def word1Reg (c : BitVec 4) (r : Reg) (e : BitVec 1) (n8 : BitVec 8) : Word := c ++ r.bits ++ e ++ n8

/-- The word of an instruction (30_encoding.md R100, R116); NOT is always written with bbb = 000 (R105). -/
def encode : Instr → Word
  | .and d a b => word3Reg 0b0000#4 d a 0b000#3 b.bits
  | .or d a b => word3Reg 0b0000#4 d a 0b001#3 b.bits
  | .xor d a b => word3Reg 0b0000#4 d a 0b010#3 b.bits
  | .not d a => word3Reg 0b0000#4 d a 0b011#3 0b000#3
  | .add d a b => word3Reg 0b0000#4 d a 0b100#3 b.bits
  | .sub d a b => word3Reg 0b0000#4 d a 0b101#3 b.bits
  | .sha d a b => word3Reg 0b0000#4 d a 0b110#3 b.bits
  | .shl d a b => word3Reg 0b0000#4 d a 0b111#3 b.bits
  | .cmplt d a b => word3Reg 0b0001#4 d a 0b000#3 b.bits
  | .cmple d a b => word3Reg 0b0001#4 d a 0b001#3 b.bits
  | .cmpeq d a b => word3Reg 0b0001#4 d a 0b011#3 b.bits
  | .cmpltu d a b => word3Reg 0b0001#4 d a 0b100#3 b.bits
  | .cmpleu d a b => word3Reg 0b0001#4 d a 0b101#3 b.bits
  | .addi d a n6 => word2Reg 0b0010#4 d a n6
  | .ld d a n6 => word2Reg 0b0011#4 d a n6
  | .st b a n6 => word2Reg 0b0100#4 b a n6
  | .movi d n8 => word1Reg 0b0101#4 d 0#1 n8
  | .movhi d n8 => word1Reg 0b0101#4 d 1#1 n8
  | .bz b n8 => word1Reg 0b0110#4 b 0#1 n8
  | .bnz b n8 => word1Reg 0b0110#4 b 1#1 n8
  | .inp d p => word1Reg 0b0111#4 d 0#1 p.bits
  | .out b p => word1Reg 0b0111#4 b 1#1 p.bits

end Sys2Proof
end

