-- ==== Sys2Proof/Machine/Bank.lean ====
section
/-! DEFINITION. Reading and writing one element of a bank of registers or ports (spec 10_state.md R32; 20_memory.md R68). -/

namespace Sys2Proof

/-- Element `i`. -/
def Bank.get {α : Type} {n : Nat} (b : Bank α n) (i : Fin n) : α := b.elements[i.val]'(b.complete.symm ▸ i.isLt)

/-- The bank with element `i` replaced by `v`. -/
def Bank.set {α : Type} {n : Nat} (b : Bank α n) (i : Fin n) (v : α) : Bank α n :=
  ⟨b.elements.set i.val v, List.length_set.trans b.complete⟩

/-- The bank whose element `i` is `f i`. -/
def Bank.ofFn {α : Type} {n : Nat} (f : Fin n → α) : Bank α n := ⟨List.ofFn f, List.length_ofFn⟩

end Sys2Proof
end

