-- ==== Sys2Proof/Machine/State.lean ====
section
/-! DEFINITION. The state of SISA-I (spec 10_state.md R30), the outcomes of a step (60_exceptions.md R222), and the states a run can
start from (70_reset_and_hazards.md R240). -/

namespace Sys2Proof.Machine

/-- MEM (10_state.md R40; 20_memory.md R60, R61): the words that differ from what an unlisted address reads as, as pairs of an
address, 0 to 65535, and a word, addresses strictly rising (`Memory.wf`). The cell is the 16-bit word, the smallest unit there is
(20_memory.md R65; log 1). -/
structure Memory where
  cells : List (Nat × Word)
  deriving DecidableEq, Repr

/-- The architectural state of 10_state.md R30 (`mem`, `pc`, `regs`, `input`, `output`) and the model's own fields (`outTrace`,
`envTurns`, `config`). -/
structure State where
  /-- MEM, one memory for code and data (10_state.md R40). -/
  mem : Memory
  /-- PC, a word address (10_state.md R35). -/
  pc : Word
  /-- R0 to R7, all alike (10_state.md R32, R34). -/
  regs : Bank Word 8
  /-- INPUT: what the environment holds in each input port now (10_state.md R41; 20_memory.md R76). Where a port is one register with
  its output port (20_memory.md R69) this is that register. -/
  input : Bank Word 256
  /-- OUTPUT: the last value written to each output port (10_state.md R41; 20_memory.md R76). -/
  output : Bank Word 256
  /-- The model's own: the (port, value) pairs of the executed OUTs, oldest first (20_memory.md R76). -/
  outTrace : List (Port × Word)
  /-- The model's own: how many turns the environment has taken; it selects the next free values (log 7). -/
  envTurns : Nat
  /-- The model's own: the spec's parameters, which no step changes (00_scope.md R3; logs 8 and 10). -/
  config : Config
  deriving DecidableEq, Repr

/-- Why a step stops with a fault. -/
inductive Fault where
  /-- The word `word`, fetched at address `pc`, encodes no instruction (30_encoding.md R106; 60_exceptions.md R212). Raised by
  `step` alone, and the state stays as it was before the fetch. Safe (log 9). -/
  | illegalInstruction (pc word : Word)
  deriving DecidableEq, Repr

/-- Why an instruction is refused. -/
inductive Refusal where
  /-- An arm of `exec` that has no meaning yet. Raised by no arm: all 22 instructions have their meaning. Safe. -/
  | notModelled (mnemonic : String)
  deriving DecidableEq, Repr

/-- The outcome of a step or of an instruction. -/
abbrev Result := Host.Outcome State Fault Refusal

/-- What a run's initial state S0 is made of (70_reset_and_hazards.md R240): every element is an argument of the model. -/
structure StartParams where
  /-- RESET_PC (D3). -/
  resetPc : Word
  /-- INIT_REGS (D4). -/
  initRegs : Bank Word 8
  /-- INIT_MEM, the image (D5). -/
  initMem : Memory
  /-- What the environment holds in the input ports at the start (D9). -/
  initInput : Bank Word 256
  /-- What the output ports hold before the first OUT (I10). -/
  initOutput : Bank Word 256
  /-- The parameters of 00_scope.md R3 that have a choice. -/
  config : Config
  deriving DecidableEq, Repr

/-- The initial state S0 of a run (70_reset_and_hazards.md R240): '"reset" in a model is simply the choice of S0'. -/
def State.start (p : StartParams) : State where
  mem := p.initMem
  pc := p.resetPc
  regs := p.initRegs
  input := p.initInput
  output := p.initOutput
  outTrace := []
  envTurns := 0
  config := p.config

/-- DESIGN CHOICE (logs 2 to 6, unsafe): the spec gives no reset value for anything (10_state.md R48), so the model names them: zero
everywhere, no memory word listed, and the spec's default parameters. -/
def StartParams.modelsChoice : StartParams where
  resetPc := 0x0000#16
  initRegs := Bank.fill 8 0x0000#16
  initMem := ⟨[]⟩
  initInput := Bank.fill 256 0x0000#16
  initOutput := Bank.fill 256 0x0000#16
  config := Config.default

/-- The machine right after reset, at the values the assumption log names (logs 2 to 8, 10, 12). -/
def State.reset : State := State.start StartParams.modelsChoice

end Sys2Proof.Machine
end

