-- ==== Sys2Proof/Machine/Memory.lean ====
section
/-! DEFINITION. Reading and writing MEM (spec 20_memory.md R63), and the canonical form of its list of cells. -/

namespace Sys2Proof.Machine

/-- The word at an address in a list of cells. -/
def lookupCell : List (Nat × Word) → Nat → Word
  | [], _ => Config.unlistedWord
  | (k, v) :: rest, a => if k = a then v else lookupCell rest a

/-- Put a word at an address, keeping the addresses strictly rising and listing no word equal to what an unlisted address reads as. -/
def storeCell : List (Nat × Word) → Nat → Word → List (Nat × Word)
  | [], a, v => if v = Config.unlistedWord then [] else [(a, v)]
  | (k, w) :: rest, a, v =>
    if k < a then (k, w) :: storeCell rest a v
    else
      let tail := if k = a then rest else (k, w) :: rest
      if v = Config.unlistedWord then tail else (a, v) :: tail

/-- The canonical form from address `low` on: strictly rising addresses of the 65536, no word an unlisted address reads as. -/
def canonicalFrom : Nat → List (Nat × Word) → Bool
  | _, [] => true
  | low, (k, v) :: rest => low ≤ k && k < 65536 && v != Config.unlistedWord && canonicalFrom (k + 1) rest

/-- The canonical form of a memory: equal memories are equal lists. -/
def Memory.wf (m : Memory) : Bool := canonicalFrom 0 m.cells

/-- `MEM[a]` (20_memory.md R63). The address is read as a natural number (R67), so every address holds a word (R61). -/
def Memory.read (m : Memory) (a : Word) : Word := lookupCell m.cells a.toNat

/-- `MEM[a] ← v` (20_memory.md R63): the word at `a` is replaced and no other word changes. -/
def Memory.write (m : Memory) (a v : Word) : Memory := ⟨storeCell m.cells a.toNat v⟩

/-- A memory from an image given as (address, word) pairs, as spec/95_test_vectors.md gives its programs (INIT_MEM, D5). -/
def Memory.ofImage (image : List (Word × Word)) : Memory :=
  image.foldl (fun m entry => m.write entry.1 entry.2) ⟨[]⟩

end Sys2Proof.Machine
end

