-- ==== Sys2Proof/Machine/Ops.lean ====
section
/-! DEFINITION. The primitives of the spec's pseudocode over the state (00_scope.md R15), the ends of an instruction, and the turn of
the environment. There is no operation that takes an exception and none that returns from one: SISA-I has no exception, no
interrupt and no trap return (60_exceptions.md R210, R214, R215; log 20). -/

namespace Sys2Proof.Machine

/-- `x[i]`, the read of a general register (10_state.md R32). -/
def State.readReg (s : State) (r : Reg) : Word := s.regs.get r

/-- `x[i] <- v`: all 16 bits of the register are replaced (10_state.md R32); no register is hardwired (R34). -/
def State.writeReg (s : State) (r : Reg) (v : Word) : State := { s with regs := s.regs.set r v }

/-- `pc <- t`, the address of the next fetch (10_state.md R36). -/
def State.setPc (s : State) (t : Word) : State := { s with pc := t }

/-- `pc <- pc + 1`, implicit sequencing, modulo 2^16 (10_state.md R36, R38). -/
def State.advance (s : State) : State := s.setPc (s.pc + 1#16)

/-- `MemRead(a, 1)` (20_memory.md R63): changes nothing and never faults (R61, R66). -/
def State.memRead (s : State) (a : Word) : Word := s.mem.read a

/-- `MemWrite(a, 1, v)` (20_memory.md R63): changes no other word and never faults. -/
def State.memWrite (s : State) (a v : Word) : State := { s with mem := s.mem.write a v }

/-- The word at the PC: fetch is the same read as a load's (20_memory.md R64). -/
def State.fetch (s : State) : Word := s.memRead s.pc

/-- `PortIn(p)`: the 16 bits of INPUT[p] (20_memory.md R68). -/
def State.portIn (s : State) (p : Port) : Word := s.input.get p

/-- Whether INPUT[p] and OUTPUT[p] are one register (20_memory.md R69). -/
def State.aliasedPort (s : State) (p : Port) : Bool := s.config.ioPortsAliased.get p

/-- OUTPUT[p] as the outside sees it: where the two ports are one register, that register (20_memory.md R69). -/
def State.outputPort (s : State) (p : Port) : Word := if s.aliasedPort p then s.input.get p else s.output.get p

/-- `PortOut(p, v)`: all 16 bits of OUTPUT[p] are replaced (20_memory.md R68), in the one register of the two ports where they are
one (R69); the pair (p, v) joins the trace of outputs (R76). -/
def State.portOut (s : State) (p : Port) (v : Word) : State :=
  { s with
    input := if s.aliasedPort p then s.input.set p v else s.input
    output := if s.aliasedPort p then s.output else s.output.set p v
    outTrace := s.outTrace ++ [(p, v)] }

/-- The end of an instruction that writes `v` to its destination register and goes on to the next address (10_state.md R36). -/
def writeAndAdvance (d : Reg) (v : Word) (s : State) : Result := .next (s.writeReg d v).advance

/-- The end of an instruction that has changed memory or a port and goes on to the next address (10_state.md R36). -/
def goOn (s : State) : Result := .next s.advance

/-- The end of a branch: to the target when the condition holds, else to the next address (44_branch.md R180). -/
def branchTo (taken : Bool) (target : Word) (s : State) : Result := .next (if taken then s.setPc target else s.advance)

/-- What the input ports hold after a turn of the environment: in each port a value "under no law", or what it held
(20_memory.md R76, D9). Irreducible, so that Lean's unifier does not unfold the 256 entries. -/
@[irreducible] def State.redrawnInput (s : State) : Bank Word 256 :=
  Bank.ofFn fun p : Port => (Config.environment s.envTurns s.outTrace p).getD (s.portIn p)

/-- A turn of the environment (20_memory.md R76, D9): it acts on the input ports and on nothing else (D18). -/
def State.environmentTurn (s : State) : State :=
  { s with input := s.redrawnInput, envTurns := s.envTurns + 1 }

/-- When the environment takes its turn: after an executed IN, so that the next IN of any port gets a new value (D9), and after an
OUT to a port that is one register with its input port, since the environment may change what was written there before an IN reads
it (20_memory.md R69). After any other instruction a turn could not be observed before the next such turn (log 7). -/
def environmentActsAfter (i : Instr) (s : State) : Bool :=
  match i with
  | .inp _ _ => true
  | .out _ p => s.aliasedPort p
  | .and _ _ _ | .or _ _ _ | .xor _ _ _ | .not _ _ | .add _ _ _ | .sub _ _ _ | .sha _ _ _ | .shl _ _ _ => false
  | .cmplt _ _ _ | .cmple _ _ _ | .cmpeq _ _ _ | .cmpltu _ _ _ | .cmpleu _ _ _ => false
  | .addi _ _ _ | .ld _ _ _ | .st _ _ _ | .movi _ _ | .movhi _ _ | .bz _ _ | .bnz _ _ => false

/-- What follows the instruction `i` before the next fetch: the turn of the environment where it takes one. -/
def afterInstruction (i : Instr) (r : Result) : Result :=
  match r with
  | .next t => .next (if environmentActsAfter i t then t.environmentTurn else t)
  | .fault f => .fault f
  | .refused q => .refused q

end Sys2Proof.Machine
end

