-- ==== Sys2Proof/Machine/Operands.lean ====
section
/-! DEFINITION. The operand forms of SISA-I (spec 30_encoding.md section 2; 40_arith_logic.md R139; 43_load_store.md R170;
44_branch.md R180). -/

namespace Sys2Proof.Machine

/-- `sext_16(N6)` (00_scope.md R9; 30_encoding.md R97). -/
def sext6 (n6 : BitVec 6) : Word := n6.signExtend 16

/-- `sext_16(N8)` (00_scope.md R9; 30_encoding.md R98). -/
def sext8 (n8 : BitVec 8) : Word := n8.signExtend 16

/-- The effective address of LD and ST, base register plus displacement, modulo 2^16 (43_load_store.md R170). -/
def effectiveAddress (s : State) (a : Reg) (n6 : BitVec 6) : Word := s.readReg a + sext6 n6

/-- The target of a taken branch, relative to the branch itself, modulo 2^16 (44_branch.md R180). -/
def branchTarget (s : State) (n8 : BitVec 8) : Word := s.pc + sext8 n8

/-- The amount of SHA and SHL: the low 5 bits of the second source as a two's complement number, -16 to 15
(40_arith_logic.md R139). -/
def shiftAmount (v : Word) : Int := (v.extractLsb' 0 5).toInt

/-- A word with a new high byte and its own low byte (45_move_immediate.md R192). -/
def withHighByte (n8 : BitVec 8) (v : Word) : Word := n8 ++ v.extractLsb' 0 8

end Sys2Proof.Machine
end

