-- ==== Sys2Proof/Machine/AddImmediate.lean ====
section
/-! DEFINITION. ADDI, the one operation with an immediate (spec 41_addi.md). -/

namespace Sys2Proof.Machine

/-- ADDI (41_addi.md R150): modulo 2^16, nothing detected. -/
def execAddi (d a : Reg) (n6 : BitVec 6) (s : State) : Result := writeAndAdvance d (s.readReg a + sext6 n6) s

end Sys2Proof.Machine
end

