-- ==== Sys2Proof/Machine/ArithLogic.lean ====
section
/-! DEFINITION. The eight instructions of opcode 0000 (spec 40_arith_logic.md). None sets a flag, none raises anything (R130); both
sources are read before the destination is written (00_scope.md R16). -/

namespace Sys2Proof.Machine

/-- The result of SHA on `x` by `k` places (40_arith_logic.md R137): left with zeros, right with copies of the sign bit. -/
def shiftArithmetic (x : Word) (k : Int) : Word := if 0 ≤ k then x <<< k.toNat else x.sshiftRight (-k).toNat

/-- The result of SHL on `x` by `k` places (40_arith_logic.md R138): zeros enter on both sides. -/
def shiftLogic (x : Word) (k : Int) : Word := if 0 ≤ k then x <<< k.toNat else x >>> (-k).toNat

/-- AND (40_arith_logic.md R131). -/
def execAnd (d a b : Reg) (s : State) : Result := writeAndAdvance d (s.readReg a &&& s.readReg b) s

/-- OR (40_arith_logic.md R132). -/
def execOr (d a b : Reg) (s : State) : Result := writeAndAdvance d (s.readReg a ||| s.readReg b) s

/-- XOR (40_arith_logic.md R133). -/
def execXor (d a b : Reg) (s : State) : Result := writeAndAdvance d (s.readReg a ^^^ s.readReg b) s

/-- NOT (40_arith_logic.md R134): R0, which bbb = 000 would name, is not read. -/
def execNot (d a : Reg) (s : State) : Result := writeAndAdvance d (~~~ s.readReg a) s

/-- ADD (40_arith_logic.md R135): modulo 2^16, no carry and no overflow recorded. -/
def execAdd (d a b : Reg) (s : State) : Result := writeAndAdvance d (s.readReg a + s.readReg b) s

/-- SUB (40_arith_logic.md R136): Ra minus Rb modulo 2^16, no borrow and no overflow recorded. -/
def execSub (d a b : Reg) (s : State) : Result := writeAndAdvance d (s.readReg a - s.readReg b) s

/-- SHA (40_arith_logic.md R137). -/
def execSha (d a b : Reg) (s : State) : Result :=
  writeAndAdvance d (shiftArithmetic (s.readReg a) (shiftAmount (s.readReg b))) s

/-- SHL (40_arith_logic.md R138). -/
def execShl (d a b : Reg) (s : State) : Result :=
  writeAndAdvance d (shiftLogic (s.readReg a) (shiftAmount (s.readReg b))) s

end Sys2Proof.Machine
end

