-- ==== Sys2Proof/Machine/Flags.lean ====
section
/-! DEFINITION. SISA-I has no flags (spec 10_state.md R43). What takes their place stands here: the conditions on words
(00_scope.md R8, R11) that the comparisons write into a register and the branches test. -/

namespace Sys2Proof.Machine

/-- `<`, both operands read as signed integers (00_scope.md R7, R11). -/
def lessSigned (x y : Word) : Bool := decide (x.toInt < y.toInt)

/-- `<=`, both operands read as signed integers (00_scope.md R7, R11). -/
def lessEqSigned (x y : Word) : Bool := decide (x.toInt ≤ y.toInt)

/-- `==`, all 16 bits equal (00_scope.md R11). -/
def equalWords (x y : Word) : Bool := decide (x = y)

/-- `<u`, both operands read as natural numbers (00_scope.md R6, R11). -/
def lessUnsigned (x y : Word) : Bool := decide (x.toNat < y.toNat)

/-- `<=u`, both operands read as natural numbers (00_scope.md R6, R11). -/
def lessEqUnsigned (x y : Word) : Bool := decide (x.toNat ≤ y.toNat)

/-- The word a comparison writes: exactly 0x0001 or 0x0000 (42_compare.md R155). -/
def truthWord (c : Bool) : Word := if c then 0x0001#16 else 0x0000#16

/-- `X_boolean`: FALSE when all 16 bits are 0, TRUE for every other value (00_scope.md R8). -/
def booleanOf (x : Word) : Bool := decide (x ≠ 0x0000#16)

end Sys2Proof.Machine
end

