-- ==== Sys2Proof/Machine/Branch.lean ====
section
/-! DEFINITION. BZ and BNZ (spec 44_branch.md): they write the PC only; no delay slot (R180). -/

namespace Sys2Proof.Machine

/-- BZ (44_branch.md R181). -/
def execBz (b : Reg) (n8 : BitVec 8) (s : State) : Result :=
  branchTo (!booleanOf (s.readReg b)) (branchTarget s n8) s

/-- BNZ (44_branch.md R182). -/
def execBnz (b : Reg) (n8 : BitVec 8) (s : State) : Result :=
  branchTo (booleanOf (s.readReg b)) (branchTarget s n8) s

end Sys2Proof.Machine
end

