-- ==== Sys2Proof/Machine/Compare.lean ====
section
/-! DEFINITION. The five comparisons of opcode 0001 (spec 42_compare.md): 0x0001 or 0x0000 into Rd, of the true values (R155). -/

namespace Sys2Proof.Machine

/-- CMPLT (42_compare.md R156). -/
def execCmplt (d a b : Reg) (s : State) : Result :=
  writeAndAdvance d (truthWord (lessSigned (s.readReg a) (s.readReg b))) s

/-- CMPLE (42_compare.md R157). -/
def execCmple (d a b : Reg) (s : State) : Result :=
  writeAndAdvance d (truthWord (lessEqSigned (s.readReg a) (s.readReg b))) s

/-- CMPEQ (42_compare.md R158). -/
def execCmpeq (d a b : Reg) (s : State) : Result :=
  writeAndAdvance d (truthWord (equalWords (s.readReg a) (s.readReg b))) s

/-- CMPLTU (42_compare.md R159). -/
def execCmpltu (d a b : Reg) (s : State) : Result :=
  writeAndAdvance d (truthWord (lessUnsigned (s.readReg a) (s.readReg b))) s

/-- CMPLEU (42_compare.md R160). -/
def execCmpleu (d a b : Reg) (s : State) : Result :=
  writeAndAdvance d (truthWord (lessEqUnsigned (s.readReg a) (s.readReg b))) s

end Sys2Proof.Machine
end

