-- ==== Sys2Proof/Machine/InputOutput.lean ====
section
/-! DEFINITION. IN and OUT (spec 46_io.md): all 256 ports of each space exist, nothing is privileged, nothing is raised (R200). -/

namespace Sys2Proof.Machine

/-- IN (46_io.md R201): the value the environment holds in the port at that moment; the instruction changes no port. -/
def execIn (d : Reg) (p : Port) (s : State) : Result := writeAndAdvance d (s.portIn p) s

/-- OUT (46_io.md R202): the port keeps the value until the next OUT to the same address. -/
def execOut (b : Reg) (p : Port) (s : State) : Result := goOn (s.portOut p (s.readReg b))

end Sys2Proof.Machine
end

