-- ==== Sys2Proof/Machine/LoadStore.lean ====
section
/-! DEFINITION. LD and ST (spec 43_load_store.md): one width, one addressing mode, no address that faults (R170, R173). -/

namespace Sys2Proof.Machine

/-- LD (43_load_store.md R171): the address is formed from the old Ra, so d may equal a. -/
def execLd (d a : Reg) (n6 : BitVec 6) (s : State) : Result := writeAndAdvance d (s.memRead (effectiveAddress s a n6)) s

/-- ST (43_load_store.md R172): I<11..9> is the number of the register whose content is stored. -/
def execSt (b a : Reg) (n6 : BitVec 6) (s : State) : Result :=
  goOn (s.memWrite (effectiveAddress s a n6) (s.readReg b))

end Sys2Proof.Machine
end

