-- ==== Sys2Proof/Machine/MoveImmediate.lean ====
section
/-! DEFINITION. MOVI and MOVHI (spec 45_move_immediate.md). -/

namespace Sys2Proof.Machine

/-- MOVI (45_move_immediate.md R191): the old content has no influence. -/
def execMovi (d : Reg) (n8 : BitVec 8) (s : State) : Result := writeAndAdvance d (sext8 n8) s

/-- MOVHI (45_move_immediate.md R192): the one instruction that reads its destination register. -/
def execMovhi (d : Reg) (n8 : BitVec 8) (s : State) : Result := writeAndAdvance d (withHighByte n8 (s.readReg d)) s

end Sys2Proof.Machine
end

