-- ==== Sys2Proof/Machine/Dispatch.lean ====
section
/-! DEFINITION. The meaning of every instruction: one arm per constructor of `Instr`. -/

namespace Sys2Proof.Machine

def exec (i : Instr) (s : State) : Host.Outcome State Fault Refusal :=
  match i with
  | .and d a b => Sys2Proof.Machine.execAnd d a b s
  | .or d a b => Sys2Proof.Machine.execOr d a b s
  | .xor d a b => Sys2Proof.Machine.execXor d a b s
  | .not d a => Sys2Proof.Machine.execNot d a s
  | .add d a b => Sys2Proof.Machine.execAdd d a b s
  | .sub d a b => Sys2Proof.Machine.execSub d a b s
  | .sha d a b => Sys2Proof.Machine.execSha d a b s
  | .shl d a b => Sys2Proof.Machine.execShl d a b s
  | .cmplt d a b => Sys2Proof.Machine.execCmplt d a b s
  | .cmple d a b => Sys2Proof.Machine.execCmple d a b s
  | .cmpeq d a b => Sys2Proof.Machine.execCmpeq d a b s
  | .cmpltu d a b => Sys2Proof.Machine.execCmpltu d a b s
  | .cmpleu d a b => Sys2Proof.Machine.execCmpleu d a b s
  | .addi d a n => Sys2Proof.Machine.execAddi d a n s
  | .ld d a n => Sys2Proof.Machine.execLd d a n s
  | .st b a n => Sys2Proof.Machine.execSt b a n s
  | .movi d n => Sys2Proof.Machine.execMovi d n s
  | .movhi d n => Sys2Proof.Machine.execMovhi d n s
  | .bz b n => Sys2Proof.Machine.execBz b n s
  | .bnz b n => Sys2Proof.Machine.execBnz b n s
  | .inp d p => Sys2Proof.Machine.execIn d p s
  | .out b p => Sys2Proof.Machine.execOut b p s

end Sys2Proof.Machine
end

