-- ==== Sys2Proof/Machine/Step.lean ====
section
/-! DEFINITION. One step of the machine (spec 10_state.md R36): fetch, decode, execute, then the environment's turn where it takes one
(20_memory.md R76). -/

namespace Sys2Proof.Machine

/-- One step (10_state.md R36): the word at the PC is fetched and decoded; a word that encodes no instruction is the fault of
30_encoding.md R106, with the state not advanced; any other is executed. -/
def step (s : State) : Host.Outcome State Fault Refusal :=
  match decode s.config.notBbbNonzero s.fetch with
  | .error _ => .fault (.illegalInstruction s.pc s.fetch)
  | .ok i => afterInstruction i (exec i s)

/-- `s` with the instruction whose bits are `w` stored at the PC, where the next step fetches (log 11). -/
def State.withFetchWord (s : State) (nbits w : Nat) : State := s.memWrite s.pc (wordOfBits nbits w)

end Sys2Proof.Machine
end

