-- ==== Sys2Proof/Machine/Assembler.lean ====
section
/-! DEFINITION. "Lenguaje ensamblador SISA-I" (spec 30_encoding.md R109 to R116): statements as terms, their written form, and the
instruction a statement stands for. No step uses it. A parser of text, directives and pseudo-instructions are not in the spec
(R115, Q14; log 16). -/

namespace Sys2Proof.Machine

/-- A constant expression (30_encoding.md R110, R112): a number, a label or symbol, or a sum such as `L+4`. R112 says only
"constantes" of the constants in a sum. DESIGN CHOICE (log 16): one written in hexadecimal there (`L+0x10`) is the number its digits
write, so it is `num 16` like the decimal `16`, and the sum is checked as a number; the bit string of R111, cut to the field, is a
whole operand only (`AsmConst.hex`). -/
inductive AsmExpr where
  | num (v : Int)
  | sym (name : String)
  | add (left right : AsmExpr)
  deriving DecidableEq, Repr

/-- The constant C of a statement: an expression, or a bit string written in hexadecimal after `0x` (30_encoding.md R111). -/
inductive AsmConst where
  | expr (e : AsmExpr)
  | hex (bits : Nat)
  deriving DecidableEq, Repr

/-- An operand as it is written (30_encoding.md R109): `R5`, `C`, or `C(Ra)`. -/
inductive Operand where
  | reg (r : Reg)
  | const (c : AsmConst)
  | mem (c : AsmConst) (a : Reg)
  deriving DecidableEq, Repr

/-- "A statement is a mnemonic followed by its operands separated by commas" (30_encoding.md R109). -/
structure Statement where
  mnemonic : Mnemonic
  operands : List Operand
  deriving DecidableEq, Repr

/-- "Error de ensamblado" (30_encoding.md R113): no word is produced (93_implementation_defined.md I14). -/
inductive AsmError where
  /-- The operands are not those of a form of R109. -/
  | badOperands
  /-- The expression names a label or symbol that is not defined (R112). -/
  | undefinedSymbol (name : String)
  /-- The constant cannot be represented in the field (R113). -/
  | outOfRange (value : Int)
  deriving DecidableEq, Repr

/-- The labels and symbols defined, each with its value (30_encoding.md R112). -/
abbrev SymbolTable := List (String × Int)

/-- The value of a constant expression (30_encoding.md R110, R112). -/
def AsmExpr.value (symbols : SymbolTable) : AsmExpr → Except AsmError Int
  | .num v => .ok v
  | .sym name =>
    match symbols.lookup name with
    | some v => .ok v
    | none => .error (.undefinedSymbol name)
  | .add left right =>
    match left.value symbols, right.value symbols with
    | .ok x, .ok y => .ok (x + y)
    | .error e, _ => .error e
    | .ok _, .error e => .error e

/-- A number that must lie in `low` to `high`, in a field of `n` bits (30_encoding.md R110, R113). -/
def numberField (n : Nat) (low high v : Int) : Except AsmError (BitVec n) :=
  if low ≤ v ∧ v ≤ high then .ok (BitVec.ofInt n v) else .error (.outOfRange v)

/-- A constant in a field of `n` bits: a number in the range, or the low `n` bits of the hexadecimal string
(30_encoding.md R110, R111, R113). -/
def constField (n : Nat) (low high : Int) (symbols : SymbolTable) : AsmConst → Except AsmError (BitVec n)
  | .hex bits => .ok (BitVec.ofNat n bits)
  | .expr e =>
    match e.value symbols with
    | .ok v => numberField n low high v
    | .error err => .error err

/-- N6 of ADDI, LD and ST: two's complement, -32 to 31 (30_encoding.md R110). -/
def n6Signed (symbols : SymbolTable) (c : AsmConst) : Except AsmError (BitVec 6) := constField 6 (-32) 31 symbols c

/-- N8 of MOVI: two's complement, -128 to 127 (30_encoding.md R110). -/
def n8Signed (symbols : SymbolTable) (c : AsmConst) : Except AsmError (BitVec 8) := constField 8 (-128) 127 symbols c

/-- N8 of MOVHI, IN and OUT: binary, 0 to 255 (30_encoding.md R110). -/
def n8Binary (symbols : SymbolTable) (c : AsmConst) : Except AsmError (BitVec 8) := constField 8 0 255 symbols c

/-- N8 of BZ and BNZ: the address of the label minus the address `here` of the branch, -128 to 127 (30_encoding.md R114). The
difference of the two 16-bit addresses is taken modulo 2^16 (log 16, DEDUCED from 10_state.md R38). R109 and R114 speak of a label
only. DESIGN CHOICE (log 16): any expression stands for the address it yields, a sum such as `L+4` or a decimal number; a value outside
0 to 65535 is no address and is refused, not wrapped; a hexadecimal bit string is refused. -/
def labelField (here : Word) (symbols : SymbolTable) : AsmConst → Except AsmError (BitVec 8)
  | .hex _ => .error .badOperands
  | .expr e =>
    match e.value symbols with
    | .ok v =>
      match numberField 16 0 65535 v with
      | .ok label => numberField 8 (-128) 127 (label - here).toInt
      | .error err => .error err
    | .error err => .error err

/-- The instruction a statement at address `here` stands for, operand order as written (30_encoding.md R109). -/
def assemble (symbols : SymbolTable) (here : Word) (st : Statement) : Except AsmError Instr :=
  match st.mnemonic, st.operands with
  | .and, [.reg d, .reg a, .reg b] => .ok (.and d a b)
  | .or, [.reg d, .reg a, .reg b] => .ok (.or d a b)
  | .xor, [.reg d, .reg a, .reg b] => .ok (.xor d a b)
  | .not, [.reg d, .reg a] => .ok (.not d a)
  | .add, [.reg d, .reg a, .reg b] => .ok (.add d a b)
  | .sub, [.reg d, .reg a, .reg b] => .ok (.sub d a b)
  | .sha, [.reg d, .reg a, .reg b] => .ok (.sha d a b)
  | .shl, [.reg d, .reg a, .reg b] => .ok (.shl d a b)
  | .cmplt, [.reg d, .reg a, .reg b] => .ok (.cmplt d a b)
  | .cmple, [.reg d, .reg a, .reg b] => .ok (.cmple d a b)
  | .cmpeq, [.reg d, .reg a, .reg b] => .ok (.cmpeq d a b)
  | .cmpltu, [.reg d, .reg a, .reg b] => .ok (.cmpltu d a b)
  | .cmpleu, [.reg d, .reg a, .reg b] => .ok (.cmpleu d a b)
  | .addi, [.reg d, .reg a, .const c] => (n6Signed symbols c).map (.addi d a)
  | .ld, [.reg d, .mem c a] => (n6Signed symbols c).map (.ld d a)
  | .st, [.mem c a, .reg b] => (n6Signed symbols c).map (.st b a)
  | .movi, [.reg d, .const c] => (n8Signed symbols c).map (.movi d)
  | .movhi, [.reg d, .const c] => (n8Binary symbols c).map (.movhi d)
  | .bz, [.reg b, .const c] => (labelField here symbols c).map (.bz b)
  | .bnz, [.reg b, .const c] => (labelField here symbols c).map (.bnz b)
  | .inp, [.reg d, .const c] => (n8Binary symbols c).map fun n8 => .inp d (Port.ofBits n8)
  | .out, [.const c, .reg b] => (n8Binary symbols c).map fun n8 => .out b (Port.ofBits n8)
  | _, _ => .error .badOperands

/-- A decimal constant. -/
def decimal (v : Int) : AsmConst := .expr (.num v)

/-- A statement that stands for the instruction at address `here`, constants in decimal; the operand of a branch is the address of
its target (30_encoding.md R109, R114). -/
def statementOf (here : Word) : Instr → Statement
  | .and d a b => ⟨.and, [.reg d, .reg a, .reg b]⟩
  | .or d a b => ⟨.or, [.reg d, .reg a, .reg b]⟩
  | .xor d a b => ⟨.xor, [.reg d, .reg a, .reg b]⟩
  | .not d a => ⟨.not, [.reg d, .reg a]⟩
  | .add d a b => ⟨.add, [.reg d, .reg a, .reg b]⟩
  | .sub d a b => ⟨.sub, [.reg d, .reg a, .reg b]⟩
  | .sha d a b => ⟨.sha, [.reg d, .reg a, .reg b]⟩
  | .shl d a b => ⟨.shl, [.reg d, .reg a, .reg b]⟩
  | .cmplt d a b => ⟨.cmplt, [.reg d, .reg a, .reg b]⟩
  | .cmple d a b => ⟨.cmple, [.reg d, .reg a, .reg b]⟩
  | .cmpeq d a b => ⟨.cmpeq, [.reg d, .reg a, .reg b]⟩
  | .cmpltu d a b => ⟨.cmpltu, [.reg d, .reg a, .reg b]⟩
  | .cmpleu d a b => ⟨.cmpleu, [.reg d, .reg a, .reg b]⟩
  | .addi d a n6 => ⟨.addi, [.reg d, .reg a, .const (decimal n6.toInt)]⟩
  | .ld d a n6 => ⟨.ld, [.reg d, .mem (decimal n6.toInt) a]⟩
  | .st b a n6 => ⟨.st, [.mem (decimal n6.toInt) a, .reg b]⟩
  | .movi d n8 => ⟨.movi, [.reg d, .const (decimal n8.toInt)]⟩
  | .movhi d n8 => ⟨.movhi, [.reg d, .const (decimal n8.toNat)]⟩
  | .bz b n8 => ⟨.bz, [.reg b, .const (decimal (here + sext8 n8).toNat)]⟩
  | .bnz b n8 => ⟨.bnz, [.reg b, .const (decimal (here + sext8 n8).toNat)]⟩
  | .inp d p => ⟨.inp, [.reg d, .const (decimal p.val)]⟩
  | .out b p => ⟨.out, [.const (decimal p.val), .reg b]⟩

/-- The mnemonic as it is written (30_encoding.md R109). -/
def mnemonicText : Mnemonic → String
  | .and => "AND" | .or => "OR" | .xor => "XOR" | .not => "NOT" | .add => "ADD" | .sub => "SUB" | .sha => "SHA" | .shl => "SHL"
  | .cmplt => "CMPLT" | .cmple => "CMPLE" | .cmpeq => "CMPEQ" | .cmpltu => "CMPLTU" | .cmpleu => "CMPLEU"
  | .addi => "ADDI" | .ld => "LD" | .st => "ST" | .movi => "MOVI" | .movhi => "MOVHI" | .bz => "BZ" | .bnz => "BNZ"
  | .inp => "IN" | .out => "OUT"

/-- A constant expression as it is written (30_encoding.md R112). -/
def AsmExpr.written : AsmExpr → String
  | .num v => toString v
  | .sym name => name
  | .add left right => left.written ++ "+" ++ right.written

/-- A constant as it is written: decimal is the default, `0x` introduces hexadecimal (30_encoding.md R110, R111). -/
def AsmConst.written : AsmConst → String
  | .expr e => e.written
  | .hex bits => "0x" ++ String.ofList (Nat.toDigits 16 bits)

/-- An operand as it is written (30_encoding.md R109). -/
def Operand.written : Operand → String
  | .reg r => "R" ++ toString r.val
  | .const c => c.written
  | .mem c a => c.written ++ "(R" ++ toString a.val ++ ")"

/-- A statement as it is written (30_encoding.md R109). -/
def Statement.written (st : Statement) : String :=
  mnemonicText st.mnemonic ++ " " ++ ", ".intercalate (st.operands.map Operand.written)

end Sys2Proof.Machine
end

