-- ==== Sys2Proof/Safety.lean ====
section
/-! DEFINITION. The terms claims use: what a run is, how it ends and when it has gone wrong; what the output ports hold against the
trace; how a statement, a word and an instruction belong together. None of this is behaviour of the architecture (spec
60_exceptions.md R222): the end of a run is the convention of 70_reset_and_hazards.md R243 (log 14). -/

namespace Sys2Proof.Machine

/-- The run has gone wrong: the next step is the fault of 60_exceptions.md R212. -/
def State.faults (s : State) : Prop := step s = .fault (.illegalInstruction s.pc s.fetch)

/-- HALT_CONVENTION (70_reset_and_hazards.md R243): the run has ended when the step of the state is the state itself. -/
def State.ended (s : State) : Prop := step s = .next s

/-- The two words of 70_reset_and_hazards.md R243 that make the state a fixed point: at the PC stands a BZ with N8 = 0 on a register
that holds 0, or a BNZ with N8 = 0 on a register that does not. -/
def State.atSelfBranch (s : State) : Prop :=
  ∃ b : Reg, (s.fetch = encode (.bz b 0x00#8) ∧ s.readReg b = 0x0000#16) ∨
    (s.fetch = encode (.bnz b 0x00#8) ∧ s.readReg b ≠ 0x0000#16)

/-- `k` steps from `s` all have a next state: the run has not gone wrong in its first `k` steps. -/
def State.safeFor (s : State) (k : Nat) : Prop := ∃ t, Host.Core.run core k s = .next t

/-- A run from `s` has ended in `t` within `k` steps (70_reset_and_hazards.md R243). -/
def State.endsIn (s t : State) (k : Nat) : Prop := Host.Core.run core k s = .next t ∧ t.ended

/-- The last value the trace has for port `p`. -/
def lastOutput (p : Port) : List (Port × Word) → Option Word
  | [] => none
  | (q, v) :: rest =>
    match lastOutput p rest with
    | some w => some w
    | none => if q = p then some v else none

/-- Every output port that is apart from its input port holds the last value the trace has for it (20_memory.md R76; 46_io.md
R202: "The port keeps the value until the next OUT to the same address"). -/
def State.outputsFollowTrace (s : State) : Prop :=
  ∀ p v, s.aliasedPort p = false → lastOutput p s.outTrace = some v → s.outputPort p = v

/-- The statement with this mnemonic and these operands stands for the instruction wherever it is placed (30_encoding.md R109), the
instruction's word is `w` (R116), and `w` decodes to the instruction under either value of NOT_BBB_NONZERO (R108). -/
def IsForm (mnemonic : Mnemonic) (operands : List Operand) (w : Word) (i : Instr) : Prop :=
  (∀ symbols here, assemble symbols here ⟨mnemonic, operands⟩ = .ok i) ∧ encode i = w ∧ ∀ notBbb, decode notBbb w = .ok i

end Sys2Proof.Machine
end

