-- ==== Sys2Proof/Certificates/Slice0/Obligations.lean ====
section
/-! DEFINITION. The statements about SISA-I that the provers settle, from the numbered rules of the spec. A next state is written out
as a record update wherever the rules give all of it, so that such a statement is the instruction's result, its frame and its
completion in one. -/

open Sys2Proof Sys2Proof.Machine

/-! ### Decoding and encoding -/

/-- The 22 words of 95_test_vectors.md section 2.10, each register field different, decode to their statements. -/
def Obligations.SpecWordsDecodeToTheirInstructions : Prop :=
  ∀ pair ∈ ([(0x0283#16, .and 1 2 3), (0x04CC#16, .or 2 3 4), (0x0715#16, .xor 3 4 5), (0x0958#16, .not 4 5),
      (0x0BA7#16, .add 5 6 7), (0x0DE8#16, .sub 6 7 0), (0x0E31#16, .sha 7 0 1), (0x007A#16, .shl 0 1 2),
      (0x12C5#16, .cmplt 1 3 5), (0x150E#16, .cmple 2 4 6), (0x175F#16, .cmpeq 3 5 7), (0x19A0#16, .cmpltu 4 6 0),
      (0x1BE9#16, .cmpleu 5 7 1), (0x2C6F#16, .addi 6 1 0b101111#6), (0x3E8D#16, .ld 7 2 0b001101#6),
      (0x48F7#16, .st 4 3 0b110111#6), (0x5A9C#16, .movi 5 0x9C#8), (0x5DC8#16, .movhi 6 0xC8#8), (0x62FD#16, .bz 1 0xFD#8),
      (0x6564#16, .bnz 2 0x64#8), (0x769C#16, .inp 3 0x9C), (0x7965#16, .out 4 0x65)] : List (Word × Instr)),
    decode .reserved pair.1 = .ok pair.2

/-- Decoding the word of any instruction gives it back, under either value of NOT_BBB_NONZERO. -/
def Obligations.DecodeInvertsEncode : Prop :=
  ∀ (notBbb : NotBbbNonzero) (i : Instr), decode notBbb (encode i) = .ok i

/-- Every bit of a word that decodes is significant (30_encoding.md R107): the word is the encoding of what it decodes to. -/
def Obligations.EveryDecodedWordIsItsEncoding : Prop :=
  ∀ (w : Word) (i : Instr), decode .reserved w = .ok i → encode i = w

/-- The decoder reads an instruction of mnemonic `m` exactly where a row of mnemonic `m` of the table of 30_encoding.md R100 fits. -/
def Obligations.DecoderAgreesWithTheOpcodeTable : Prop :=
  ∀ (w : Word) (m : Mnemonic), (∃ i, decode .reserved w = .ok i ∧ i.mnemonic = m) ↔
    ∃ row ∈ opcodeTable, row.mnemonic = m ∧ w &&& row.mask = row.pattern

/-- R103, R104: the unused opcodes and comparison functions are refused by name. R105, a decision of the spec's own (D2; log 10): the
words of NOT with bbb not 000 are refused by name under the default of NOT_BBB_NONZERO and are NOT under the other value. Every word
that is none of these decodes. -/
def Obligations.UnusedEncodingsAreRefusedByName : Prop :=
  ∀ (notBbb : NotBbbNonzero) (w : Word),
    if w.getLsbD 15 then decode notBbb w = .error (.opcode (w.extractLsb' 12 4))
    else if w &&& 0xF038#16 = 0x1010#16 ∨ w &&& 0xF038#16 = 0x1030#16 ∨ w &&& 0xF038#16 = 0x1038#16 then
      decode notBbb w = .error (.compareFunction (w.extractLsb' 3 3))
    else if w &&& 0xF038#16 = 0x0018#16 ∧ w &&& 0x0007#16 ≠ 0#16 then
      decode .reserved w = .error (.notSource (w.extractLsb' 0 3)) ∧
        decode .ignore w = .ok (.not (Reg.ofBits (w.extractLsb' 9 3)) (Reg.ofBits (w.extractLsb' 6 3)))
    else ∃ i, decode notBbb w = .ok i

/-! ### Arithmetic and logic (40_arith_logic.md) -/

/-- R131. -/
def Obligations.AndWritesTheBitwiseAnd : Prop :=
  ∀ (d a b : Reg) (s : State),
    IsForm .and [.reg d, .reg a, .reg b] (0b0000#4 ++ d.bits ++ a.bits ++ 0b000#3 ++ b.bits) (.and d a b) ∧
    ∃ v : Word, (∀ i < 16, v.getLsbD i = ((s.readReg a).getLsbD i && (s.readReg b).getLsbD i)) ∧
      exec (.and d a b) s = .next { s with regs := s.regs.set d v, pc := s.pc + 1#16 }

/-- R132. -/
def Obligations.OrWritesTheBitwiseOr : Prop :=
  ∀ (d a b : Reg) (s : State),
    IsForm .or [.reg d, .reg a, .reg b] (0b0000#4 ++ d.bits ++ a.bits ++ 0b001#3 ++ b.bits) (.or d a b) ∧
    ∃ v : Word, (∀ i < 16, v.getLsbD i = ((s.readReg a).getLsbD i || (s.readReg b).getLsbD i)) ∧
      exec (.or d a b) s = .next { s with regs := s.regs.set d v, pc := s.pc + 1#16 }

/-- R133. -/
def Obligations.XorWritesTheBitwiseExclusiveOr : Prop :=
  ∀ (d a b : Reg) (s : State),
    IsForm .xor [.reg d, .reg a, .reg b] (0b0000#4 ++ d.bits ++ a.bits ++ 0b010#3 ++ b.bits) (.xor d a b) ∧
    ∃ v : Word, (∀ i < 16, v.getLsbD i = ((s.readReg a).getLsbD i ^^ (s.readReg b).getLsbD i)) ∧
      exec (.xor d a b) s = .next { s with regs := s.regs.set d v, pc := s.pc + 1#16 }

/-- R134: bit by bit, and as numbers; no other register is read; with bbb not 000 the word is not NOT (the default of R105,
log 10). -/
def Obligations.NotWritesTheComplement : Prop :=
  ∀ (d a : Reg) (s : State),
    IsForm .not [.reg d, .reg a] (0b0000#4 ++ d.bits ++ a.bits ++ 0b011#3 ++ 0b000#3) (.not d a) ∧
    (∀ b : BitVec 3, b ≠ 0b000#3 → decode .reserved (0b0000#4 ++ d.bits ++ a.bits ++ 0b011#3 ++ b) = .error (.notSource b)) ∧
    ∃ v : Word, (∀ i < 16, v.getLsbD i = !(s.readReg a).getLsbD i) ∧
      v.toNat = 65535 - (s.readReg a).toNat ∧ v.toInt = -(s.readReg a).toInt - 1 ∧
      exec (.not d a) s = .next { s with regs := s.regs.set d v, pc := s.pc + 1#16 }

/-- R135. -/
def Obligations.AddWritesTheSumModulo65536 : Prop :=
  ∀ (d a b : Reg) (s : State),
    IsForm .add [.reg d, .reg a, .reg b] (0b0000#4 ++ d.bits ++ a.bits ++ 0b100#3 ++ b.bits) (.add d a b) ∧
    ∃ v : Word, v.toNat = ((s.readReg a).toNat + (s.readReg b).toNat) % 65536 ∧
      exec (.add d a b) s = .next { s with regs := s.regs.set d v, pc := s.pc + 1#16 }

/-- R136: the subtrahend is Rb. -/
def Obligations.SubWritesTheDifferenceModulo65536 : Prop :=
  ∀ (d a b : Reg) (s : State),
    IsForm .sub [.reg d, .reg a, .reg b] (0b0000#4 ++ d.bits ++ a.bits ++ 0b101#3 ++ b.bits) (.sub d a b) ∧
    ∃ v : Word, (v.toNat : Int) = ((s.readReg a).toNat - (s.readReg b).toNat : Int) % 65536 ∧
      exec (.sub d a b) s = .next { s with regs := s.regs.set d v, pc := s.pc + 1#16 }

/-- R139: the amount of the shifts is the low 5 bits of the second source in two's complement, -16 to 15; the other bits are
ignored. -/
def Obligations.ShiftAmountIsTheLowFiveBitsSigned : Prop :=
  ∀ y : Word,
    shiftAmount y = (y.toNat % 16 : Nat) - (if y.getLsbD 4 then 16 else 0) ∧
    -16 ≤ shiftAmount y ∧ shiftAmount y ≤ 15 ∧
    ∀ z : Word, (∀ i < 5, z.getLsbD i = y.getLsbD i) → shiftAmount z = shiftAmount y

/-- R137: bit by bit and as arithmetic; a right shift is the division that rounds toward minus infinity. -/
def Obligations.ShaShiftsArithmetically : Prop :=
  ∀ (d a b : Reg) (s : State),
    IsForm .sha [.reg d, .reg a, .reg b] (0b0000#4 ++ d.bits ++ a.bits ++ 0b110#3 ++ b.bits) (.sha d a b) ∧
    ∃ v : Word,
      (∀ k : Nat, ((s.readReg b).extractLsb' 0 5).toInt = k →
        (∀ i < 16, v.getLsbD i = (decide (k ≤ i) && (s.readReg a).getLsbD (i - k))) ∧
        v = BitVec.ofInt 16 ((s.readReg a).toInt * 2 ^ k)) ∧
      (∀ n : Nat, 0 < n → ((s.readReg b).extractLsb' 0 5).toInt = -n →
        (∀ i < 16, v.getLsbD i = if i + n < 16 then (s.readReg a).getLsbD (i + n) else (s.readReg a).getLsbD 15) ∧
        v.toInt = (s.readReg a).toInt / 2 ^ n) ∧
      exec (.sha d a b) s = .next { s with regs := s.regs.set d v, pc := s.pc + 1#16 }

/-- R138: bit by bit and as arithmetic on naturals; to the left it is SHA. -/
def Obligations.ShlShiftsLogically : Prop :=
  ∀ (d a b : Reg) (s : State),
    IsForm .shl [.reg d, .reg a, .reg b] (0b0000#4 ++ d.bits ++ a.bits ++ 0b111#3 ++ b.bits) (.shl d a b) ∧
    ∃ v : Word,
      (∀ k : Nat, ((s.readReg b).extractLsb' 0 5).toInt = k →
        (∀ i < 16, v.getLsbD i = (decide (k ≤ i) && (s.readReg a).getLsbD (i - k))) ∧
        v.toNat = (s.readReg a).toNat * 2 ^ k % 65536 ∧
        exec (.sha d a b) s = exec (.shl d a b) s) ∧
      (∀ n : Nat, 0 < n → ((s.readReg b).extractLsb' 0 5).toInt = -n →
        (∀ i < 16, v.getLsbD i = (decide (i + n < 16) && (s.readReg a).getLsbD (i + n))) ∧
        v.toNat = (s.readReg a).toNat / 2 ^ n) ∧
      exec (.shl d a b) s = .next { s with regs := s.regs.set d v, pc := s.pc + 1#16 }

/-! ### Operation with an immediate (41_addi.md) -/

/-- R150: for every value of N6, -32 to 31. -/
def Obligations.AddiWritesTheSumWithN6 : Prop :=
  ∀ (d a : Reg) (n6 : BitVec 6) (s : State),
    IsForm .addi [.reg d, .reg a, .const (decimal n6.toInt)] (0b0010#4 ++ d.bits ++ a.bits ++ n6) (.addi d a n6) ∧
    (-32 ≤ n6.toInt ∧ n6.toInt ≤ 31) ∧
    ∃ v : Word, (v.toNat : Int) = ((s.readReg a).toNat + n6.toInt) % 65536 ∧
      exec (.addi d a n6) s = .next { s with regs := s.regs.set d v, pc := s.pc + 1#16 }

/-! ### Comparisons (42_compare.md) -/

/-- R156. -/
def Obligations.CmpltWritesSignedLess : Prop :=
  ∀ (d a b : Reg) (s : State),
    IsForm .cmplt [.reg d, .reg a, .reg b] (0b0001#4 ++ d.bits ++ a.bits ++ 0b000#3 ++ b.bits) (.cmplt d a b) ∧
    exec (.cmplt d a b) s = .next { s with
      regs := s.regs.set d (if (s.readReg a).toInt < (s.readReg b).toInt then 0x0001#16 else 0x0000#16), pc := s.pc + 1#16 }

/-- R157. -/
def Obligations.CmpleWritesSignedLessOrEqual : Prop :=
  ∀ (d a b : Reg) (s : State),
    IsForm .cmple [.reg d, .reg a, .reg b] (0b0001#4 ++ d.bits ++ a.bits ++ 0b001#3 ++ b.bits) (.cmple d a b) ∧
    exec (.cmple d a b) s = .next { s with
      regs := s.regs.set d (if (s.readReg a).toInt ≤ (s.readReg b).toInt then 0x0001#16 else 0x0000#16), pc := s.pc + 1#16 }

/-- R158. -/
def Obligations.CmpeqWritesEquality : Prop :=
  ∀ (d a b : Reg) (s : State),
    IsForm .cmpeq [.reg d, .reg a, .reg b] (0b0001#4 ++ d.bits ++ a.bits ++ 0b011#3 ++ b.bits) (.cmpeq d a b) ∧
    exec (.cmpeq d a b) s = .next { s with
      regs := s.regs.set d (if s.readReg a = s.readReg b then 0x0001#16 else 0x0000#16), pc := s.pc + 1#16 }

/-- R159. -/
def Obligations.CmpltuWritesUnsignedLess : Prop :=
  ∀ (d a b : Reg) (s : State),
    IsForm .cmpltu [.reg d, .reg a, .reg b] (0b0001#4 ++ d.bits ++ a.bits ++ 0b100#3 ++ b.bits) (.cmpltu d a b) ∧
    exec (.cmpltu d a b) s = .next { s with
      regs := s.regs.set d (if (s.readReg a).toNat < (s.readReg b).toNat then 0x0001#16 else 0x0000#16), pc := s.pc + 1#16 }

/-- R160. -/
def Obligations.CmpleuWritesUnsignedLessOrEqual : Prop :=
  ∀ (d a b : Reg) (s : State),
    IsForm .cmpleu [.reg d, .reg a, .reg b] (0b0001#4 ++ d.bits ++ a.bits ++ 0b101#3 ++ b.bits) (.cmpleu d a b) ∧
    exec (.cmpleu d a b) s = .next { s with
      regs := s.regs.set d (if (s.readReg a).toNat ≤ (s.readReg b).toNat then 0x0001#16 else 0x0000#16), pc := s.pc + 1#16 }

/-! ### Memory access (43_load_store.md) -/

/-- R170: the address is base plus displacement modulo 2^16, -32 to 31 words away; the base register keeps its content unless it is
the destination. -/
def Obligations.EffectiveAddressIsBasePlusN6Modulo65536 : Prop :=
  ∀ (s : State) (a : Reg) (n6 : BitVec 6),
    ((effectiveAddress s a n6).toNat : Int) = ((s.readReg a).toNat + n6.toInt) % 65536 ∧ -32 ≤ n6.toInt ∧ n6.toInt ≤ 31 ∧
    (∀ d t, d ≠ a → exec (.ld d a n6) s = .next t → t.readReg a = s.readReg a) ∧
    (∀ b t, exec (.st b a n6) s = .next t → t.readReg a = s.readReg a)

/-- R171. -/
def Obligations.LdLoadsTheWordAtTheEffectiveAddress : Prop :=
  ∀ (d a : Reg) (n6 : BitVec 6) (s : State),
    IsForm .ld [.reg d, .mem (decimal n6.toInt) a] (0b0011#4 ++ d.bits ++ a.bits ++ n6) (.ld d a n6) ∧
    exec (.ld d a n6) s = .next { s with
      regs := s.regs.set d (s.memRead (s.readReg a + n6.signExtend 16)), pc := s.pc + 1#16 }

/-- R172: the word at the effective address is replaced (read back in any canonical memory), every other word and everything else
but the PC stays. -/
def Obligations.StStoresTheRegisterAtTheEffectiveAddress : Prop :=
  ∀ (b a : Reg) (n6 : BitVec 6) (s : State),
    IsForm .st [.mem (decimal n6.toInt) a, .reg b] (0b0100#4 ++ b.bits ++ a.bits ++ n6) (.st b a n6) ∧
    ∃ t, exec (.st b a n6) s = .next t ∧ t = { s with mem := t.mem, pc := s.pc + 1#16 } ∧
      (s.mem.wf = true → t.memRead (s.readReg a + n6.signExtend 16) = s.readReg b) ∧
      ∀ x, x ≠ s.readReg a + n6.signExtend 16 → t.memRead x = s.memRead x

/-- 20_memory.md R71 (b): a load returns the latest store to its address, or what was there before. -/
def Obligations.LoadReturnsTheLatestStore : Prop :=
  ∀ (s : State) (b a d c : Reg) (n m : BitVec 6), s.mem.wf = true →
    ∃ t u, exec (.st b a n) s = .next t ∧ exec (.ld d c m) t = .next u ∧
      u.readReg d = if effectiveAddress s c m = effectiveAddress s a n then s.readReg b else s.memRead (effectiveAddress s c m)

/-- 20_memory.md R73: a word written by ST is what a later fetch from that address returns, by the very next instruction too. -/
def Obligations.StoredWordIsFetchedByTheNextInstruction : Prop :=
  ∀ (s : State) (b a : Reg) (n : BitVec 6), s.mem.wf = true → s.fetch = encode (.st b a n) →
    effectiveAddress s a n = s.pc + 1#16 → ∃ t, step s = .next t ∧ t.pc = s.pc + 1#16 ∧ t.fetch = s.readReg b

/-! ### Branches (44_branch.md) -/

/-- R181 (encoding and result); R114 for the assembler form. That the target's address in decimal stands for a label, and that the
distance is taken modulo 2^16, so that the statement assembles at EVERY address, is the model's choice (log 16). -/
def Obligations.BzBranchesOnZero : Prop :=
  ∀ (b : Reg) (n8 : BitVec 8) (s : State),
    (∀ symbols here, assemble symbols here ⟨.bz, [.reg b, .const (decimal (here + n8.signExtend 16).toNat)]⟩ = .ok (.bz b n8)) ∧
    encode (.bz b n8) = 0b0110#4 ++ b.bits ++ 0#1 ++ n8 ∧ (∀ notBbb, decode notBbb (encode (.bz b n8)) = .ok (.bz b n8)) ∧
    exec (.bz b n8) s = .next { s with
      pc := if s.readReg b = 0x0000#16 then s.pc + n8.signExtend 16 else s.pc + 1#16 }

/-- R182 (encoding and result); R114 for the assembler form, with the model's choice of log 16 as in `BzBranchesOnZero`. -/
def Obligations.BnzBranchesOnNotZero : Prop :=
  ∀ (b : Reg) (n8 : BitVec 8) (s : State),
    (∀ symbols here, assemble symbols here ⟨.bnz, [.reg b, .const (decimal (here + n8.signExtend 16).toNat)]⟩ = .ok (.bnz b n8)) ∧
    encode (.bnz b n8) = 0b0110#4 ++ b.bits ++ 1#1 ++ n8 ∧ (∀ notBbb, decode notBbb (encode (.bnz b n8)) = .ok (.bnz b n8)) ∧
    exec (.bnz b n8) s = .next { s with
      pc := if s.readReg b ≠ 0x0000#16 then s.pc + n8.signExtend 16 else s.pc + 1#16 }

/-- R180: a taken branch goes -128 to 127 words from itself, modulo 2^16. -/
def Obligations.TakenBranchGoesN8WordsFromItself : Prop :=
  ∀ (s t : State) (b : Reg) (n8 : BitVec 8),
    (s.readReg b = 0x0000#16 ∧ exec (.bz b n8) s = .next t) ∨ (s.readReg b ≠ 0x0000#16 ∧ exec (.bnz b n8) s = .next t) →
    (t.pc.toNat : Int) = (s.pc.toNat + n8.toInt) % 65536 ∧ -128 ≤ n8.toInt ∧ n8.toInt ≤ 127

/-- R183: the pair `BZ Rb, L` and `BNZ Rb, L` always reaches L, and changes nothing but the PC. -/
def Obligations.BzBnzPairAlwaysReachesItsLabel : Prop :=
  ∀ (s : State) (b : Reg) (n m : BitVec 8), s.fetch = encode (.bz b n) → s.memRead (s.pc + 1#16) = encode (.bnz b m) →
    s.pc + n.signExtend 16 = s.pc + 1#16 + m.signExtend 16 →
    ∃ t, t = { s with pc := s.pc + n.signExtend 16 } ∧
      (step s = .next t ∨ ∃ u, step s = .next u ∧ step u = .next t)

/-! ### Register-immediate moves (45_move_immediate.md) -/

/-- R191: all 16 bits are replaced; a hexadecimal constant gives its low 8 bits. -/
def Obligations.MoviWritesN8SignExtended : Prop :=
  ∀ (d : Reg) (n8 : BitVec 8) (s : State),
    IsForm .movi [.reg d, .const (decimal n8.toInt)] (0b0101#4 ++ d.bits ++ 0#1 ++ n8) (.movi d n8) ∧
    (∀ symbols here c, assemble symbols here ⟨.movi, [.reg d, .const (.hex c)]⟩ = .ok (.movi d (BitVec.ofNat 8 c))) ∧
    ∃ v : Word, v.toInt = n8.toInt ∧ v.extractLsb' 0 8 = n8 ∧
      exec (.movi d n8) s = .next { s with regs := s.regs.set d v, pc := s.pc + 1#16 }

/-- R192: the high byte is N8 as it stands, the low byte stays. -/
def Obligations.MovhiReplacesTheHighByte : Prop :=
  ∀ (d : Reg) (n8 : BitVec 8) (s : State),
    IsForm .movhi [.reg d, .const (decimal n8.toNat)] (0b0101#4 ++ d.bits ++ 1#1 ++ n8) (.movhi d n8) ∧
    ∃ v : Word, v.extractLsb' 8 8 = n8 ∧ v.extractLsb' 0 8 = (s.readReg d).extractLsb' 0 8 ∧
      exec (.movhi d n8) s = .next { s with regs := s.regs.set d v, pc := s.pc + 1#16 }

/-- R193: MOVI with the low byte and then MOVHI with the high byte load any constant into any register, R0 included. -/
def Obligations.MoviThenMovhiLoadsAnyConstant : Prop :=
  ∀ (d : Reg) (c : Word) (s : State),
    ∃ t, exec (.movi d (c.extractLsb' 0 8)) s = .next t ∧
      exec (.movhi d (c.extractLsb' 8 8)) t = .next { s with regs := s.regs.set d c, pc := s.pc + 2#16 }

/-! ### Input and output (46_io.md) -/

/-- R201: the register gets what the port holds; no port, no memory word and no other register changes. -/
def Obligations.InReadsTheInputPort : Prop :=
  ∀ (d : Reg) (p : Port) (s : State),
    IsForm .inp [.reg d, .const (decimal p.val)] (0b0111#4 ++ d.bits ++ 0#1 ++ BitVec.ofNat 8 p.val) (.inp d p) ∧
    exec (.inp d p) s = .next { s with regs := s.regs.set d (s.portIn p), pc := s.pc + 1#16 }

/-- R202: the output port shows the register's content; no register, no memory word and no other port changes, and where the port is
apart from its input port no input port does. -/
def Obligations.OutWritesTheOutputPort : Prop :=
  ∀ (b : Reg) (p : Port) (s : State),
    IsForm .out [.const (decimal p.val), .reg b] (0b0111#4 ++ b.bits ++ 1#1 ++ BitVec.ofNat 8 p.val) (.out b p) ∧
    ∃ t, exec (.out b p) s = .next t ∧
      t = { s with
        input := t.input, output := t.output, outTrace := s.outTrace ++ [(p, s.readReg b)], pc := s.pc + 1#16 } ∧
      t.outputPort p = s.readReg b ∧ (∀ q, q ≠ p → t.outputPort q = s.outputPort q ∧ t.portIn q = s.portIn q) ∧
      (s.aliasedPort p = false → t.input = s.input)

/-- 20_memory.md R69, as the model has it (its choice, log 7). Where the two ports of an address are separate, the environment takes no
turn after the OUT, and an IN that comes next returns what the input port held before. Where they are one register, the environment
takes a turn after the OUT: the IN returns the free value of that turn, or the value written where the environment left the port. -/
def Obligations.InAfterOutFollowsPortAliasing : Prop :=
  ∀ (s : State) (b d : Reg) (p : Port), s.fetch = encode (.out b p) →
    ∃ t u, step s = .next t ∧ exec (.inp d p) t = .next u ∧
      (s.aliasedPort p = false → u.readReg d = s.portIn p) ∧
      (s.aliasedPort p = true →
        u.readReg d = (Config.environment s.envTurns (s.outTrace ++ [(p, s.readReg b)]) p).getD (s.readReg b))

/-- 20_memory.md R76 and D9, as the model has them (log 7): after an executed IN the environment puts a free value into any input
port, or leaves the port as it is; the step does the IN's own work and nothing else. -/
def Obligations.EnvironmentTakesATurnAfterIn : Prop :=
  ∀ (s : State) (d : Reg) (p : Port), s.fetch = encode (.inp d p) →
    ∃ t, step s = .next t ∧ t.readReg d = s.portIn p ∧
      (∀ q, t.portIn q = (Config.environment s.envTurns s.outTrace q).getD (s.portIn q)) ∧
      t = { s with input := t.input, regs := s.regs.set d (s.portIn p), pc := s.pc + 1#16, envTurns := s.envTurns + 1 }

/-! ### One step, whole-machine rules -/

/-- 10_state.md R36: when the word at the PC decodes to `i`, the step is `exec i`, and after it the turn of the environment where
`environmentActsAfter` says that it takes one (log 7). -/
def Obligations.StepRunsTheDecodedInstruction : Prop :=
  ∀ (s t : State) (i : Instr), decode s.config.notBbbNonzero (s.memRead s.pc) = .ok i → exec i s = .next t →
    step s = .next (if environmentActsAfter i t then t.environmentTurn else t)

/-- 60_exceptions.md R222: a next state for every word that encodes an instruction, whatever the rest of the state, and the fault of
R212 for every other word; nothing else. -/
def Obligations.StepHasExactlyTwoKindsOfOutcome : Prop :=
  ∀ s : State,
    if s.fetch.wellFormed s.config.notBbbNonzero then ∃ t, step s = .next t
    else step s = .fault (.illegalInstruction s.pc s.fetch)

/-- 60_exceptions.md R213: an instruction that is decoded as legal always completes. -/
def Obligations.EveryInstructionCompletes : Prop :=
  ∀ (i : Instr) (s : State), ∃ t, exec i s = .next t

/-- 20_memory.md R77: only an executed ST changes memory; R63, R170 and R172: it changes only the word at its effective address. -/
def Obligations.OnlyStChangesMemory : Prop :=
  ∀ (s t : State) (x : Word), step s = .next t → t.memRead x ≠ s.memRead x →
    ∃ b a n, s.fetch = encode (.st b a n) ∧ x = effectiveAddress s a n

/-- 10_state.md R33: a step changes no general register but the destination of its instruction. -/
def Obligations.StepChangesOnlyTheDestinationRegister : Prop :=
  ∀ (s t : State) (i : Instr) (r : Reg), decode s.config.notBbbNonzero s.fetch = .ok i → step s = .next t →
    i.dest? ≠ some r → t.readReg r = s.readReg r

/-- 10_state.md R37: only a BZ or BNZ whose condition holds leaves another PC than PC + 1, and it leaves PC + SEXT(N8). -/
def Obligations.OnlyTakenBranchesDivertThePc : Prop :=
  ∀ s t : State, step s = .next t → t.pc ≠ s.pc + 1#16 →
    ∃ b n8, ((s.fetch = encode (.bz b n8) ∧ s.readReg b = 0x0000#16) ∨
        (s.fetch = encode (.bnz b n8) ∧ s.readReg b ≠ 0x0000#16)) ∧
      t.pc = s.pc + n8.signExtend 16

/-- 20_memory.md R68: only an executed OUT to a port changes that output port (where it is apart from its input port) and the trace. -/
def Obligations.OnlyOutChangesOutputPorts : Prop :=
  ∀ s t : State, step s = .next t →
    (∀ p, s.aliasedPort p = false → t.outputPort p ≠ s.outputPort p →
      ∃ b, s.fetch = encode (.out b p) ∧ t.outputPort p = s.readReg b) ∧
    (t.outTrace ≠ s.outTrace → ∃ b p, s.fetch = encode (.out b p) ∧ t.outTrace = s.outTrace ++ [(p, s.readReg b)])

/-- 20_memory.md R68 and D9, as the model has them (log 7): the environment takes no turn, and no input port changes, in the step of an
instruction that is neither an IN nor an OUT to a port that is one register with its input port. -/
def Obligations.InputPortsChangeOnlyAtPortInstructions : Prop :=
  ∀ s t : State, step s = .next t → (∀ d p, s.fetch ≠ encode (.inp d p)) →
    (∀ b p, s.fetch = encode (.out b p) → s.aliasedPort p = false) → t.input = s.input ∧ t.envTurns = s.envTurns

/-- 10_state.md R47: but for IN, what an instruction does to registers, PC, memory, OUTPUT and the trace of outputs does not depend on
what the environment has placed in INPUT. -/
def Obligations.InputMattersToInAlone : Prop :=
  ∀ (i : Instr) (s t : State) (v : Bank Word 256), (∀ d p, i ≠ .inp d p) → exec i s = .next t →
    ∃ u, exec i { s with input := v } = .next u ∧
      u.regs = t.regs ∧ u.pc = t.pc ∧ u.mem = t.mem ∧ u.output = t.output ∧ u.outTrace = t.outTrace

/-- No step changes the parameters of the spec that the model holds in the state (00_scope.md R3; logs 8 and 10). -/
def Obligations.StepKeepsTheParameters : Prop :=
  ∀ s t : State, step s = .next t → t.config = s.config

/-! ### Invariants -/

/-- Every step keeps the memory in canonical form (log 1). -/
def Obligations.StepKeepsTheMemoryCanonical : Prop :=
  ∀ s t : State, s.mem.wf = true → step s = .next t → t.mem.wf = true

/-- Every step keeps each output port at the last value the trace has for it (46_io.md R202; 20_memory.md R76). -/
def Obligations.StepKeepsOutputsAtTheirLastValue : Prop :=
  ∀ s t : State, s.outputsFollowTrace → step s = .next t → t.outputsFollowTrace

/-- Every state a run can start from (70_reset_and_hazards.md R240) has its outputs at their last values, and a canonical memory when
its image has one; the state after reset has both. -/
def Obligations.StartMeetsTheInvariants : Prop :=
  (∀ p : StartParams, p.initMem.wf = true → (State.start p).mem.wf = true ∧ (State.start p).outputsFollowTrace) ∧
    State.reset.mem.wf = true ∧ State.reset.outputsFollowTrace

/-- Canonical memories that read alike at every address are equal (log 1). -/
def Obligations.MemoriesThatReadAlikeAreEqual : Prop :=
  ∀ m n : Memory, m.wf = true → n.wf = true → (∀ a, m.read a = n.read a) → m = n

/-- 70_reset_and_hazards.md R240: of the memory at the start, exactly what the image says may be assumed. -/
def Obligations.ImageReadsAsItSays : Prop :=
  ∀ (image : List (Word × Word)) (a v : Word), (image.map Prod.fst).Nodup → (a, v) ∈ image → (Memory.ofImage image).read a = v

/-- 70_reset_and_hazards.md R243: the states whose step is the state itself are those at a taken branch with N8 = 0. To call such a
state the end of a run (`State.ended`) is a convention of the environment's that the spec decides on (D6; log 14). -/
def Obligations.FixedPointsAreTakenSelfBranches : Prop :=
  ∀ s : State, s.ended ↔ s.atSelfBranch

/-! ### Start and reset -/

/-- 70_reset_and_hazards.md R240: the state a run starts from is made of its parameters; and the MODEL'S CHOICE for the state after
reset, where the spec gives nothing (logs 2 to 8, 10 and 12): zero everywhere and the spec's default parameters. -/
def Obligations.StartTakesItsParametersAndResetIsZero : Prop :=
  (∀ p : StartParams, (State.start p).pc = p.resetPc ∧ (State.start p).regs = p.initRegs ∧ (State.start p).mem = p.initMem ∧
    (State.start p).input = p.initInput ∧ (State.start p).output = p.initOutput ∧ (State.start p).config = p.config) ∧
  State.reset.pc = 0x0000#16 ∧ (∀ r, State.reset.readReg r = 0x0000#16) ∧ (∀ a, State.reset.memRead a = 0x0000#16) ∧
    (∀ p, State.reset.portIn p = 0x0000#16 ∧ State.reset.outputPort p = 0x0000#16 ∧ State.reset.aliasedPort p = false) ∧
    State.reset.config.notBbbNonzero = .reserved ∧ State.reset.outTrace = [] ∧ State.reset.envTurns = 0

/-! ### Assembler (30_encoding.md R109 to R116) -/

/-- Every instruction has a statement that assembles to it, at every address (R109, R116; for branches log 16). -/
def Obligations.EveryInstructionHasItsStatement : Prop :=
  ∀ (symbols : SymbolTable) (here : Word) (i : Instr), assemble symbols here (statementOf here i) = .ok i

/-- R110, R113: a decimal constant is accepted in its range and refused outside it; R111: a hexadecimal one is cut to the field. -/
def Obligations.ConstantsAreAcceptedInTheirRanges : Prop :=
  ∀ (symbols : SymbolTable) (here : Word) (r q : Reg) (v : Int) (bits : Nat),
    assemble symbols here ⟨.addi, [.reg r, .reg q, .const (decimal v)]⟩ =
      (if -32 ≤ v ∧ v ≤ 31 then .ok (.addi r q (BitVec.ofInt 6 v)) else .error (.outOfRange v)) ∧
    assemble symbols here ⟨.ld, [.reg r, .mem (decimal v) q]⟩ =
      (if -32 ≤ v ∧ v ≤ 31 then .ok (.ld r q (BitVec.ofInt 6 v)) else .error (.outOfRange v)) ∧
    assemble symbols here ⟨.st, [.mem (decimal v) q, .reg r]⟩ =
      (if -32 ≤ v ∧ v ≤ 31 then .ok (.st r q (BitVec.ofInt 6 v)) else .error (.outOfRange v)) ∧
    assemble symbols here ⟨.movi, [.reg r, .const (decimal v)]⟩ =
      (if -128 ≤ v ∧ v ≤ 127 then .ok (.movi r (BitVec.ofInt 8 v)) else .error (.outOfRange v)) ∧
    assemble symbols here ⟨.movhi, [.reg r, .const (decimal v)]⟩ =
      (if 0 ≤ v ∧ v ≤ 255 then .ok (.movhi r (BitVec.ofInt 8 v)) else .error (.outOfRange v)) ∧
    assemble symbols here ⟨.inp, [.reg r, .const (decimal v)]⟩ =
      (if 0 ≤ v ∧ v ≤ 255 then .ok (.inp r (Port.ofBits (BitVec.ofInt 8 v))) else .error (.outOfRange v)) ∧
    assemble symbols here ⟨.out, [.const (decimal v), .reg r]⟩ =
      (if 0 ≤ v ∧ v ≤ 255 then .ok (.out r (Port.ofBits (BitVec.ofInt 8 v))) else .error (.outOfRange v)) ∧
    assemble symbols here ⟨.addi, [.reg r, .reg q, .const (.hex bits)]⟩ = .ok (.addi r q (BitVec.ofNat 6 bits)) ∧
    assemble symbols here ⟨.ld, [.reg r, .mem (.hex bits) q]⟩ = .ok (.ld r q (BitVec.ofNat 6 bits)) ∧
    assemble symbols here ⟨.st, [.mem (.hex bits) q, .reg r]⟩ = .ok (.st r q (BitVec.ofNat 6 bits)) ∧
    assemble symbols here ⟨.movi, [.reg r, .const (.hex bits)]⟩ = .ok (.movi r (BitVec.ofNat 8 bits)) ∧
    assemble symbols here ⟨.movhi, [.reg r, .const (.hex bits)]⟩ = .ok (.movhi r (BitVec.ofNat 8 bits)) ∧
    assemble symbols here ⟨.inp, [.reg r, .const (.hex bits)]⟩ = .ok (.inp r (Port.ofBits (BitVec.ofNat 8 bits))) ∧
    assemble symbols here ⟨.out, [.const (.hex bits), .reg r]⟩ = .ok (.out r (Port.ofBits (BitVec.ofNat 8 bits)))

/-- R114: a branch to a label assembles exactly when the label is -128 to 127 words from it (modulo 2^16, log 16), and the branch,
taken, then leaves the label's address in the PC. -/
def Obligations.BranchToALabelGoesToIt : Prop :=
  ∀ (symbols : SymbolTable) (name : String) (label : Word) (b : Reg) (s : State),
    symbols.lookup name = some (label.toNat : Int) →
    if -128 ≤ (label - s.pc).toInt ∧ (label - s.pc).toInt ≤ 127 then
      ∃ n8, assemble symbols s.pc ⟨.bz, [.reg b, .const (.expr (.sym name))]⟩ = .ok (.bz b n8) ∧
        assemble symbols s.pc ⟨.bnz, [.reg b, .const (.expr (.sym name))]⟩ = .ok (.bnz b n8) ∧
        (s.readReg b = 0x0000#16 → exec (.bz b n8) s = .next { s with pc := label }) ∧
        (s.readReg b ≠ 0x0000#16 → exec (.bnz b n8) s = .next { s with pc := label })
    else
      assemble symbols s.pc ⟨.bz, [.reg b, .const (.expr (.sym name))]⟩ = .error (.outOfRange (label - s.pc).toInt) ∧
        assemble symbols s.pc ⟨.bnz, [.reg b, .const (.expr (.sym name))]⟩ = .error (.outOfRange (label - s.pc).toInt)
end

