-- ==== Sys2Proof/Laws/Bank.lean ====
section
/-! SUPPORT. Reads after writes of a bank. -/

namespace Sys2Proof

variable {α : Type} {n : Nat}

@[simp] theorem Bank.get_fill (v : α) (i : Fin n) : (Bank.fill n v).get i = v := by simp [Bank.get, Bank.fill]

@[simp] theorem Bank.get_ofFn (f : Fin n → α) (i : Fin n) : (Bank.ofFn f).get i = f i := by simp [Bank.get, Bank.ofFn]

/-- The element written reads as the value written. -/
@[simp] theorem Bank.get_set_self (b : Bank α n) (i : Fin n) (v : α) : (b.set i v).get i = v := by simp [Bank.get, Bank.set]

/-- Every other element reads as before. -/
theorem Bank.get_set_of_ne (b : Bank α n) {i j : Fin n} (v : α) (ne : j ≠ i) : (b.set i v).get j = b.get j := by
  simp [Bank.get, Bank.set, Fin.val_ne_of_ne ne.symm]

/-- Of two writes to one element the second stays. -/
@[simp] theorem Bank.set_set (b : Bank α n) (i : Fin n) (v w : α) : (b.set i v).set i w = b.set i w := by
  simp [Bank.set, List.set_set]

/-- Banks that read alike are equal. -/
theorem Bank.ext_get {b c : Bank α n} (same : ∀ i, b.get i = c.get i) : b = c := by
  obtain ⟨xs, hx⟩ := b
  obtain ⟨ys, hy⟩ := c
  simp only [Bank.mk.injEq]
  refine List.ext_get (hx.trans hy.symm) fun k h₁ _ => ?_
  simpa [Bank.get] using same ⟨k, hx ▸ h₁⟩

end Sys2Proof
end

