-- ==== Sys2Proof/Laws/Memory.lean ====
section
/-! SUPPORT. What reading and writing memory do (spec 20_memory.md R63, R71), and that the canonical form is kept. -/

namespace Sys2Proof.Machine

theorem canonicalFrom_nil (low : Nat) : canonicalFrom low [] = true := rfl

theorem canonicalFrom_cons_iff (low k : Nat) (v : Word) (rest : List (Nat × Word)) :
    canonicalFrom low ((k, v) :: rest) = true ↔
      low ≤ k ∧ k < 65536 ∧ v ≠ Config.unlistedWord ∧ canonicalFrom (k + 1) rest = true := by
  simp [canonicalFrom, and_assoc]

/-- A canonical list from `low` on is canonical from any lower address on. -/
theorem canonicalFrom_lower {low low' : Nat} {cells : List (Nat × Word)} (h : canonicalFrom low cells = true)
    (le : low' ≤ low) : canonicalFrom low' cells = true := by
  cases cells with
  | nil => rfl
  | cons cell rest =>
    rw [canonicalFrom_cons_iff] at h ⊢
    exact ⟨le.trans h.1, h.2⟩

/-- Below its first address a canonical list reads as unlisted. -/
theorem lookupCell_below {low a : Nat} {cells : List (Nat × Word)} (h : canonicalFrom low cells = true) (lt : a < low) :
    lookupCell cells a = Config.unlistedWord := by
  induction cells generalizing low with
  | nil => rfl
  | cons cell rest ih =>
    obtain ⟨k, v⟩ := cell
    rw [canonicalFrom_cons_iff] at h
    have : k ≠ a := by omega
    simp only [lookupCell, if_neg this]
    exact ih h.2.2.2 (by omega)

/-- Storing at one address leaves what every other address reads as. -/
theorem lookupCell_storeCell_of_ne (cells : List (Nat × Word)) {a b : Nat} (v : Word) (ne : b ≠ a) :
    lookupCell (storeCell cells a v) b = lookupCell cells b := by
  induction cells with
  | nil =>
    by_cases hv : v = Config.unlistedWord
    · simp [storeCell, hv]
    · simp [storeCell, hv, lookupCell, ne.symm]
  | cons cell rest ih =>
    obtain ⟨k, w⟩ := cell
    by_cases below : k < a
    · simp only [storeCell, if_pos below, lookupCell, ih]
    · by_cases hk : k = a
      · subst hk
        by_cases hv : v = Config.unlistedWord <;> simp [storeCell, lookupCell, hv, ne.symm]
      · by_cases hv : v = Config.unlistedWord <;> simp [storeCell, lookupCell, below, hk, hv, ne.symm]

/-- In a canonical list the address stored to reads as the word stored. -/
theorem lookupCell_storeCell_self {low : Nat} {cells : List (Nat × Word)} (h : canonicalFrom low cells = true) (a : Nat) (v : Word) :
    lookupCell (storeCell cells a v) a = v := by
  induction cells generalizing low with
  | nil =>
    by_cases hv : v = Config.unlistedWord
    · simp [storeCell, hv, lookupCell]
    · simp [storeCell, hv, lookupCell]
  | cons cell rest ih =>
    obtain ⟨k, w⟩ := cell
    rw [canonicalFrom_cons_iff] at h
    by_cases below : k < a
    · have : k ≠ a := by omega
      simp only [storeCell, if_pos below, lookupCell, if_neg this]
      exact ih h.2.2.2
    · by_cases hv : v = Config.unlistedWord
      · by_cases hk : k = a
        · subst hk
          simpa [storeCell, hv] using lookupCell_below h.2.2.2 (Nat.lt_succ_self k)
        · have rest_below := lookupCell_below h.2.2.2 (show a < k + 1 by omega)
          simp [storeCell, below, hk, hv, lookupCell, rest_below]
      · simp [storeCell, below, hv, lookupCell]

/-- Storing keeps the canonical form. -/
theorem canonicalFrom_storeCell {low a : Nat} {cells : List (Nat × Word)} (v : Word) (h : canonicalFrom low cells = true)
    (le : low ≤ a) (lt : a < 65536) : canonicalFrom low (storeCell cells a v) = true := by
  induction cells generalizing low with
  | nil =>
    by_cases hv : v = Config.unlistedWord
    · simp [storeCell, hv, canonicalFrom]
    · simp [storeCell, hv, canonicalFrom, le, lt]
  | cons cell rest ih =>
    obtain ⟨k, w⟩ := cell
    have h' := (canonicalFrom_cons_iff low k w rest).mp h
    by_cases below : k < a
    · simp only [storeCell, if_pos below, canonicalFrom_cons_iff]
      exact ⟨h'.1, h'.2.1, h'.2.2.1, ih h'.2.2.2 (by omega)⟩
    · have tail_from : canonicalFrom (a + 1) (if k = a then rest else (k, w) :: rest) = true := by
        by_cases hk : k = a
        · simpa [hk] using h'.2.2.2
        · simp only [if_neg hk, canonicalFrom_cons_iff]
          exact ⟨by omega, h'.2⟩
      by_cases hv : v = Config.unlistedWord
      · simp only [storeCell, if_neg below, if_pos hv]
        exact canonicalFrom_lower tail_from (by omega)
      · simp only [storeCell, if_neg below, if_neg hv, canonicalFrom_cons_iff]
        exact ⟨le, lt, hv, tail_from⟩

/-- The memory with nothing listed is in canonical form. -/
theorem wf_empty : Memory.wf ⟨[]⟩ = true := rfl

/-- Writing keeps the canonical form. -/
theorem wf_write {m : Memory} (h : m.wf = true) (a v : Word) : (m.write a v).wf = true :=
  canonicalFrom_storeCell v h (Nat.zero_le _) a.isLt

/-- The memory of an image is in canonical form. -/
theorem wf_ofImage (image : List (Word × Word)) : (Memory.ofImage image).wf = true := by
  suffices ∀ m : Memory, m.wf = true → (image.foldl (fun m entry => m.write entry.1 entry.2) m).wf = true from
    this ⟨[]⟩ wf_empty
  induction image with
  | nil => exact fun _ h => h
  | cons entry rest ih => exact fun m h => ih _ (wf_write h entry.1 entry.2)

/-- The word written is what its address reads as afterwards. -/
theorem read_write_self {m : Memory} (h : m.wf = true) (a v : Word) : (m.write a v).read a = v :=
  lookupCell_storeCell_self h a.toNat v

/-- A write leaves what every other address reads as. -/
theorem read_write_of_ne (m : Memory) {a b : Word} (v : Word) (ne : b ≠ a) : (m.write a v).read b = m.read b :=
  lookupCell_storeCell_of_ne m.cells v fun same => ne (BitVec.eq_of_toNat_eq same)

/-- With nothing listed every address reads as the unlisted word. -/
theorem read_empty (a : Word) : Memory.read ⟨[]⟩ a = Config.unlistedWord := rfl

/-- The memory of the state after reset is in canonical form. -/
theorem wf_reset : State.reset.mem.wf = true := rfl

end Sys2Proof.Machine
end

