-- ==== Sys2Proof/Laws/State.lean ====
section
/-! SUPPORT. One lemma per field of the state per update, so that no proof unfolds a record update. -/

namespace Sys2Proof.Machine

@[simp] theorem writeReg_mem (s : State) (r : Reg) (v : Word) : (s.writeReg r v).mem = s.mem := rfl
@[simp] theorem writeReg_pc (s : State) (r : Reg) (v : Word) : (s.writeReg r v).pc = s.pc := rfl
@[simp] theorem writeReg_regs (s : State) (r : Reg) (v : Word) : (s.writeReg r v).regs = s.regs.set r v := rfl
@[simp] theorem writeReg_input (s : State) (r : Reg) (v : Word) : (s.writeReg r v).input = s.input := rfl
@[simp] theorem writeReg_output (s : State) (r : Reg) (v : Word) : (s.writeReg r v).output = s.output := rfl
@[simp] theorem writeReg_outTrace (s : State) (r : Reg) (v : Word) : (s.writeReg r v).outTrace = s.outTrace := rfl
@[simp] theorem writeReg_envTurns (s : State) (r : Reg) (v : Word) : (s.writeReg r v).envTurns = s.envTurns := rfl
@[simp] theorem writeReg_config (s : State) (r : Reg) (v : Word) : (s.writeReg r v).config = s.config := rfl

@[simp] theorem setPc_mem (s : State) (t : Word) : (s.setPc t).mem = s.mem := rfl
@[simp] theorem setPc_pc (s : State) (t : Word) : (s.setPc t).pc = t := rfl
@[simp] theorem setPc_regs (s : State) (t : Word) : (s.setPc t).regs = s.regs := rfl
@[simp] theorem setPc_input (s : State) (t : Word) : (s.setPc t).input = s.input := rfl
@[simp] theorem setPc_output (s : State) (t : Word) : (s.setPc t).output = s.output := rfl
@[simp] theorem setPc_outTrace (s : State) (t : Word) : (s.setPc t).outTrace = s.outTrace := rfl
@[simp] theorem setPc_envTurns (s : State) (t : Word) : (s.setPc t).envTurns = s.envTurns := rfl
@[simp] theorem setPc_config (s : State) (t : Word) : (s.setPc t).config = s.config := rfl

@[simp] theorem advance_mem (s : State) : s.advance.mem = s.mem := rfl
@[simp] theorem advance_pc (s : State) : s.advance.pc = s.pc + 1#16 := rfl
@[simp] theorem advance_regs (s : State) : s.advance.regs = s.regs := rfl
@[simp] theorem advance_input (s : State) : s.advance.input = s.input := rfl
@[simp] theorem advance_output (s : State) : s.advance.output = s.output := rfl
@[simp] theorem advance_outTrace (s : State) : s.advance.outTrace = s.outTrace := rfl
@[simp] theorem advance_envTurns (s : State) : s.advance.envTurns = s.envTurns := rfl
@[simp] theorem advance_config (s : State) : s.advance.config = s.config := rfl

@[simp] theorem memWrite_mem (s : State) (a v : Word) : (s.memWrite a v).mem = s.mem.write a v := rfl
@[simp] theorem memWrite_pc (s : State) (a v : Word) : (s.memWrite a v).pc = s.pc := rfl
@[simp] theorem memWrite_regs (s : State) (a v : Word) : (s.memWrite a v).regs = s.regs := rfl
@[simp] theorem memWrite_input (s : State) (a v : Word) : (s.memWrite a v).input = s.input := rfl
@[simp] theorem memWrite_output (s : State) (a v : Word) : (s.memWrite a v).output = s.output := rfl
@[simp] theorem memWrite_outTrace (s : State) (a v : Word) : (s.memWrite a v).outTrace = s.outTrace := rfl
@[simp] theorem memWrite_envTurns (s : State) (a v : Word) : (s.memWrite a v).envTurns = s.envTurns := rfl
@[simp] theorem memWrite_config (s : State) (a v : Word) : (s.memWrite a v).config = s.config := rfl

@[simp] theorem portOut_mem (s : State) (p : Port) (v : Word) : (s.portOut p v).mem = s.mem := rfl
@[simp] theorem portOut_pc (s : State) (p : Port) (v : Word) : (s.portOut p v).pc = s.pc := rfl
@[simp] theorem portOut_regs (s : State) (p : Port) (v : Word) : (s.portOut p v).regs = s.regs := rfl
@[simp] theorem portOut_input (s : State) (p : Port) (v : Word) :
    (s.portOut p v).input = if s.aliasedPort p then s.input.set p v else s.input := rfl
@[simp] theorem portOut_output (s : State) (p : Port) (v : Word) :
    (s.portOut p v).output = if s.aliasedPort p then s.output else s.output.set p v := rfl
@[simp] theorem portOut_outTrace (s : State) (p : Port) (v : Word) : (s.portOut p v).outTrace = s.outTrace ++ [(p, v)] := rfl
@[simp] theorem portOut_envTurns (s : State) (p : Port) (v : Word) : (s.portOut p v).envTurns = s.envTurns := rfl
@[simp] theorem portOut_config (s : State) (p : Port) (v : Word) : (s.portOut p v).config = s.config := rfl

@[simp] theorem environmentTurn_mem (s : State) : s.environmentTurn.mem = s.mem := rfl
@[simp] theorem environmentTurn_pc (s : State) : s.environmentTurn.pc = s.pc := rfl
@[simp] theorem environmentTurn_regs (s : State) : s.environmentTurn.regs = s.regs := rfl
@[simp] theorem environmentTurn_input (s : State) : s.environmentTurn.input = s.redrawnInput := rfl
@[simp] theorem environmentTurn_output (s : State) : s.environmentTurn.output = s.output := rfl
@[simp] theorem environmentTurn_outTrace (s : State) : s.environmentTurn.outTrace = s.outTrace := rfl
@[simp] theorem environmentTurn_envTurns (s : State) : s.environmentTurn.envTurns = s.envTurns + 1 := rfl
@[simp] theorem environmentTurn_config (s : State) : s.environmentTurn.config = s.config := rfl

@[simp] theorem start_mem (p : StartParams) : (State.start p).mem = p.initMem := rfl
@[simp] theorem start_pc (p : StartParams) : (State.start p).pc = p.resetPc := rfl
@[simp] theorem start_regs (p : StartParams) : (State.start p).regs = p.initRegs := rfl
@[simp] theorem start_input (p : StartParams) : (State.start p).input = p.initInput := rfl
@[simp] theorem start_output (p : StartParams) : (State.start p).output = p.initOutput := rfl
@[simp] theorem start_outTrace (p : StartParams) : (State.start p).outTrace = [] := rfl
@[simp] theorem start_envTurns (p : StartParams) : (State.start p).envTurns = 0 := rfl
@[simp] theorem start_config (p : StartParams) : (State.start p).config = p.config := rfl

/-- The register written reads as the word written. -/
@[simp] theorem readReg_writeReg_self (s : State) (r : Reg) (v : Word) : (s.writeReg r v).readReg r = v := by
  simp [State.readReg]

/-- Every other register reads as before. -/
theorem readReg_writeReg_of_ne (s : State) {r q : Reg} (v : Word) (ne : q ≠ r) : (s.writeReg r v).readReg q = s.readReg q := by
  simp [State.readReg, Bank.get_set_of_ne _ _ ne]

@[simp] theorem readReg_setPc (s : State) (t : Word) (r : Reg) : (s.setPc t).readReg r = s.readReg r := rfl
@[simp] theorem readReg_advance (s : State) (r : Reg) : s.advance.readReg r = s.readReg r := rfl
@[simp] theorem readReg_memWrite (s : State) (a v : Word) (r : Reg) : (s.memWrite a v).readReg r = s.readReg r := rfl
@[simp] theorem readReg_portOut (s : State) (p : Port) (v : Word) (r : Reg) : (s.portOut p v).readReg r = s.readReg r := rfl
@[simp] theorem readReg_environmentTurn (s : State) (r : Reg) : s.environmentTurn.readReg r = s.readReg r := rfl

@[simp] theorem memRead_writeReg (s : State) (r : Reg) (v a : Word) : (s.writeReg r v).memRead a = s.memRead a := rfl
@[simp] theorem memRead_setPc (s : State) (t a : Word) : (s.setPc t).memRead a = s.memRead a := rfl
@[simp] theorem memRead_advance (s : State) (a : Word) : s.advance.memRead a = s.memRead a := rfl
@[simp] theorem memRead_portOut (s : State) (p : Port) (v a : Word) : (s.portOut p v).memRead a = s.memRead a := rfl
@[simp] theorem memRead_environmentTurn (s : State) (a : Word) : s.environmentTurn.memRead a = s.memRead a := rfl

@[simp] theorem aliasedPort_writeReg (s : State) (r : Reg) (v : Word) (p : Port) :
    (s.writeReg r v).aliasedPort p = s.aliasedPort p := rfl
@[simp] theorem aliasedPort_setPc (s : State) (t : Word) (p : Port) : (s.setPc t).aliasedPort p = s.aliasedPort p := rfl
@[simp] theorem aliasedPort_advance (s : State) (p : Port) : s.advance.aliasedPort p = s.aliasedPort p := rfl
@[simp] theorem aliasedPort_memWrite (s : State) (a v : Word) (p : Port) : (s.memWrite a v).aliasedPort p = s.aliasedPort p := rfl
@[simp] theorem aliasedPort_portOut (s : State) (q : Port) (v : Word) (p : Port) :
    (s.portOut q v).aliasedPort p = s.aliasedPort p := rfl
@[simp] theorem aliasedPort_environmentTurn (s : State) (p : Port) : s.environmentTurn.aliasedPort p = s.aliasedPort p := rfl

@[simp] theorem portIn_writeReg (s : State) (r : Reg) (v : Word) (p : Port) : (s.writeReg r v).portIn p = s.portIn p := rfl
@[simp] theorem outputPort_writeReg (s : State) (r : Reg) (v : Word) (p : Port) : (s.writeReg r v).outputPort p = s.outputPort p := rfl
@[simp] theorem portIn_setPc (s : State) (t : Word) (p : Port) : (s.setPc t).portIn p = s.portIn p := rfl
@[simp] theorem outputPort_setPc (s : State) (t : Word) (p : Port) : (s.setPc t).outputPort p = s.outputPort p := rfl
@[simp] theorem portIn_advance (s : State) (p : Port) : s.advance.portIn p = s.portIn p := rfl
@[simp] theorem outputPort_advance (s : State) (p : Port) : s.advance.outputPort p = s.outputPort p := rfl
@[simp] theorem portIn_memWrite (s : State) (a v : Word) (p : Port) : (s.memWrite a v).portIn p = s.portIn p := rfl
@[simp] theorem outputPort_memWrite (s : State) (a v : Word) (p : Port) : (s.memWrite a v).outputPort p = s.outputPort p := rfl

end Sys2Proof.Machine
end

