-- ==== Sys2Proof/Laws/Ops.lean ====
section
/-! SUPPORT. For each shared operation, once, everything it can do: proofs about instructions cite these instead of unfolding. -/

namespace Sys2Proof.Machine

/-- The end of a register-writing instruction: the one register and the PC change. -/
theorem writeAndAdvance_eq (d : Reg) (v : Word) (s : State) :
    writeAndAdvance d v s = .next { s with regs := s.regs.set d v, pc := s.pc + 1#16 } := rfl

/-- If a register-writing instruction ends in `t`, `t` is that state. -/
theorem writeAndAdvance_next {d : Reg} {v : Word} {s t : State} (h : writeAndAdvance d v s = .next t) :
    t = (s.writeReg d v).advance := by
  injection h with h
  exact h.symm

/-- The end of ST and OUT: the PC changes. -/
theorem goOn_eq (s : State) : goOn s = .next { s with pc := s.pc + 1#16 } := rfl

/-- If ST or OUT ends in `t`, `t` is the state with the PC advanced. -/
theorem goOn_next {s t : State} (h : goOn s = .next t) : t = s.advance := by
  injection h with h
  exact h.symm

/-- A taken branch leaves the target in the PC and changes nothing else. -/
theorem branchTo_taken (target : Word) (s : State) : branchTo true target s = .next (s.setPc target) := rfl

/-- A branch not taken advances the PC and changes nothing else. -/
theorem branchTo_not_taken (target : Word) (s : State) : branchTo false target s = .next s.advance := rfl

/-- If a branch ends in `t`, `t` differs from `s` in the PC at most. -/
theorem branchTo_next {taken : Bool} {target : Word} {s t : State} (h : branchTo taken target s = .next t) :
    t = s.setPc (if taken then target else s.pc + 1#16) := by
  cases taken <;> (injection h with h; exact h.symm)

/-- What follows an instruction either leaves its outcome alone or adds a turn of the environment to its next state. -/
theorem afterInstruction_next {i : Instr} {r : Result} {u : State} (h : afterInstruction i r = .next u) :
    ∃ t, r = .next t ∧
      ((environmentActsAfter i t = true ∧ u = t.environmentTurn) ∨ (environmentActsAfter i t = false ∧ u = t)) := by
  cases r with
  | next t =>
    refine ⟨t, rfl, ?_⟩
    by_cases acts : environmentActsAfter i t = true
    · simp only [afterInstruction, acts, if_true] at h
      injection h with h
      exact .inl ⟨acts, h.symm⟩
    · simp only [afterInstruction, acts] at h
      injection h with h
      exact .inr ⟨by simpa using acts, h.symm⟩
  | fault f => simp [afterInstruction] at h
  | refused q => simp [afterInstruction] at h

/-- If a step answers a next state, the word at the PC decodes and the step is that instruction and what follows it. -/
theorem step_next {s u : State} (h : step s = .next u) :
    ∃ i, decode s.config.notBbbNonzero s.fetch = .ok i ∧ afterInstruction i (exec i s) = .next u := by
  unfold step at h
  split at h
  · cases h
  · exact ⟨_, ‹_›, h⟩

/-- An input port after a turn of the environment: the environment's value, or what it held. -/
theorem portIn_environmentTurn (s : State) (p : Port) :
    s.environmentTurn.portIn p = (Config.environment s.envTurns s.outTrace p).getD (s.portIn p) := by
  unfold State.portIn State.environmentTurn State.redrawnInput
  exact Bank.get_ofFn _ p

/-- The port written shows the value written. -/
theorem outputPort_portOut_self (s : State) (p : Port) (v : Word) : (s.portOut p v).outputPort p = v := by
  by_cases aliased : s.aliasedPort p = true <;> simp [State.outputPort, aliased]

/-- Every other output port shows what it showed. -/
theorem outputPort_portOut_of_ne (s : State) {p q : Port} (v : Word) (ne : q ≠ p) :
    (s.portOut p v).outputPort q = s.outputPort q := by
  by_cases aliased : s.aliasedPort p = true <;> simp [State.outputPort, aliased, Bank.get_set_of_ne _ _ ne]

/-- Where the two ports are separate, an output does not touch the input port (20_memory.md R69). -/
theorem portIn_portOut_of_separate (s : State) (p q : Port) (v : Word) (separate : s.aliasedPort p = false) :
    (s.portOut p v).portIn q = s.portIn q := by
  simp [State.portIn, separate]

/-- Where the two ports are one register, an output is what the input port holds (20_memory.md R69). -/
theorem portIn_portOut_of_aliased (s : State) (p : Port) (v : Word) (aliased : s.aliasedPort p = true) :
    (s.portOut p v).portIn p = v := by
  simp [State.portIn, aliased]

end Sys2Proof.Machine
end

