-- ==== Sys2Proof/Laws/PerInstr.lean ====
section
/-! SUPPORT. What holds of every instruction as syntax, one lemma per constructor. -/

namespace Sys2Proof

/-- The bits of a 3-Reg word that R100's mask F038 keeps: the opcode and the function. -/
theorem word3Reg_mask (c : BitVec 4) (d a : Reg) (f b : BitVec 3) :
    word3Reg c d a f b &&& 0xF038#16 = c ++ 0#3 ++ 0#3 ++ f ++ 0#3 := by
  apply BitVec.eq_of_getLsbD_eq
  intro i hi
  simp only [word3Reg, BitVec.getLsbD_and, BitVec.getLsbD_append]
  interval_cases i <;> simp

/-- The bits of a 2-Reg word that R100's mask F000 keeps: the opcode. -/
theorem word2Reg_mask (c : BitVec 4) (r a : Reg) (n6 : BitVec 6) :
    word2Reg c r a n6 &&& 0xF000#16 = c ++ 0#12 := by
  apply BitVec.eq_of_getLsbD_eq
  intro i hi
  simp only [word2Reg, BitVec.getLsbD_and, BitVec.getLsbD_append]
  interval_cases i <;> simp

/-- The bits of a 1-Reg word that R100's mask F100 keeps: the opcode and the extension bit. -/
theorem word1Reg_mask (c : BitVec 4) (r : Reg) (e : BitVec 1) (n8 : BitVec 8) :
    word1Reg c r e n8 &&& 0xF100#16 = c ++ 0#3 ++ e ++ 0#8 := by
  apply BitVec.eq_of_getLsbD_eq
  intro i hi
  simp only [word1Reg, BitVec.getLsbD_and, BitVec.getLsbD_append]
  interval_cases i <;> simp

end Sys2Proof

namespace Sys2Proof.Laws.FitsItsRow

/-- The instruction's word carries the fixed bits of the row of 30_encoding.md R100 with its mnemonic. -/
def Statement (i : Instr) : Prop :=
  ∃ row ∈ opcodeTable, row.mnemonic = i.mnemonic ∧ row.fits (encode i) = true

theorem and (d a b : Reg) : Statement (.and d a b) :=
  ⟨⟨.and, 0xF038#16, 0x0000#16⟩, by simp [opcodeTable], rfl, by simp [TableRow.fits, encode, word3Reg_mask]⟩

theorem or (d a b : Reg) : Statement (.or d a b) :=
  ⟨⟨.or, 0xF038#16, 0x0008#16⟩, by simp [opcodeTable], rfl, by simp [TableRow.fits, encode, word3Reg_mask]⟩

theorem xor (d a b : Reg) : Statement (.xor d a b) :=
  ⟨⟨.xor, 0xF038#16, 0x0010#16⟩, by simp [opcodeTable], rfl, by simp [TableRow.fits, encode, word3Reg_mask]⟩

theorem not (d a : Reg) : Statement (.not d a) :=
  ⟨⟨.not, 0xF03F#16, 0x0018#16⟩, by simp [opcodeTable], rfl, by revert d a; decide⟩

theorem add (d a b : Reg) : Statement (.add d a b) :=
  ⟨⟨.add, 0xF038#16, 0x0020#16⟩, by simp [opcodeTable], rfl, by simp [TableRow.fits, encode, word3Reg_mask]⟩

theorem sub (d a b : Reg) : Statement (.sub d a b) :=
  ⟨⟨.sub, 0xF038#16, 0x0028#16⟩, by simp [opcodeTable], rfl, by simp [TableRow.fits, encode, word3Reg_mask]⟩

theorem sha (d a b : Reg) : Statement (.sha d a b) :=
  ⟨⟨.sha, 0xF038#16, 0x0030#16⟩, by simp [opcodeTable], rfl, by simp [TableRow.fits, encode, word3Reg_mask]⟩

theorem shl (d a b : Reg) : Statement (.shl d a b) :=
  ⟨⟨.shl, 0xF038#16, 0x0038#16⟩, by simp [opcodeTable], rfl, by simp [TableRow.fits, encode, word3Reg_mask]⟩

theorem cmplt (d a b : Reg) : Statement (.cmplt d a b) :=
  ⟨⟨.cmplt, 0xF038#16, 0x1000#16⟩, by simp [opcodeTable], rfl, by simp [TableRow.fits, encode, word3Reg_mask]⟩

theorem cmple (d a b : Reg) : Statement (.cmple d a b) :=
  ⟨⟨.cmple, 0xF038#16, 0x1008#16⟩, by simp [opcodeTable], rfl, by simp [TableRow.fits, encode, word3Reg_mask]⟩

theorem cmpeq (d a b : Reg) : Statement (.cmpeq d a b) :=
  ⟨⟨.cmpeq, 0xF038#16, 0x1018#16⟩, by simp [opcodeTable], rfl, by simp [TableRow.fits, encode, word3Reg_mask]⟩

theorem cmpltu (d a b : Reg) : Statement (.cmpltu d a b) :=
  ⟨⟨.cmpltu, 0xF038#16, 0x1020#16⟩, by simp [opcodeTable], rfl, by simp [TableRow.fits, encode, word3Reg_mask]⟩

theorem cmpleu (d a b : Reg) : Statement (.cmpleu d a b) :=
  ⟨⟨.cmpleu, 0xF038#16, 0x1028#16⟩, by simp [opcodeTable], rfl, by simp [TableRow.fits, encode, word3Reg_mask]⟩

theorem addi (d a : Reg) (n6 : BitVec 6) : Statement (.addi d a n6) :=
  ⟨⟨.addi, 0xF000#16, 0x2000#16⟩, by simp [opcodeTable], rfl, by simp [TableRow.fits, encode, word2Reg_mask]⟩

theorem ld (d a : Reg) (n6 : BitVec 6) : Statement (.ld d a n6) :=
  ⟨⟨.ld, 0xF000#16, 0x3000#16⟩, by simp [opcodeTable], rfl, by simp [TableRow.fits, encode, word2Reg_mask]⟩

theorem st (b a : Reg) (n6 : BitVec 6) : Statement (.st b a n6) :=
  ⟨⟨.st, 0xF000#16, 0x4000#16⟩, by simp [opcodeTable], rfl, by simp [TableRow.fits, encode, word2Reg_mask]⟩

theorem movi (r : Reg) (n8 : BitVec 8) : Statement (.movi r n8) :=
  ⟨⟨.movi, 0xF100#16, 0x5000#16⟩, by simp [opcodeTable], rfl, by simp [TableRow.fits, encode, word1Reg_mask]⟩

theorem movhi (r : Reg) (n8 : BitVec 8) : Statement (.movhi r n8) :=
  ⟨⟨.movhi, 0xF100#16, 0x5100#16⟩, by simp [opcodeTable], rfl, by simp [TableRow.fits, encode, word1Reg_mask]⟩

theorem bz (r : Reg) (n8 : BitVec 8) : Statement (.bz r n8) :=
  ⟨⟨.bz, 0xF100#16, 0x6000#16⟩, by simp [opcodeTable], rfl, by simp [TableRow.fits, encode, word1Reg_mask]⟩

theorem bnz (r : Reg) (n8 : BitVec 8) : Statement (.bnz r n8) :=
  ⟨⟨.bnz, 0xF100#16, 0x6100#16⟩, by simp [opcodeTable], rfl, by simp [TableRow.fits, encode, word1Reg_mask]⟩

theorem inp (r : Reg) (p : Port) : Statement (.inp r p) :=
  ⟨⟨.inp, 0xF100#16, 0x7000#16⟩, by simp [opcodeTable], rfl, by simp [TableRow.fits, encode, word1Reg_mask]⟩

theorem out (r : Reg) (p : Port) : Statement (.out r p) :=
  ⟨⟨.out, 0xF100#16, 0x7100#16⟩, by simp [opcodeTable], rfl, by simp [TableRow.fits, encode, word1Reg_mask]⟩

end Sys2Proof.Laws.FitsItsRow
end

