-- ==== Sys2Proof/Tests/Slice0.lean ====
section
/-! SUPPORT. Tests of the model against the spec's own vectors (spec/95_test_vectors.md, ids S-... and D-...), the smoke test of the
checks, and for each statement with hypotheses a witness that meets them. -/

namespace Sys2Proof.Tests

open Sys2Proof.Machine

/-! ### Well-formedness: what each check refuses -/

theorem test_opcode_unused_refused : Word.wellFormed .ignore 0x8DD6#16 = false := by decide
theorem test_compare_function_unused_refused :
    (Word.wellFormed .ignore 0x1010#16, Word.wellFormed .ignore 0x1030#16, Word.wellFormed .ignore 0x1FFF#16) =
      (false, false, false) := by decide
theorem test_not_source_refused_by_default : Word.wellFormed .reserved 0x0F9F#16 = false := by decide
theorem test_not_source_accepted_when_ignored : Word.wellFormed .ignore 0x0F9F#16 = true := by decide
theorem test_wellFormed_accepts :
    (Word.wellFormed .reserved 0x0000#16, Word.wellFormed .reserved 0x0018#16, Word.wellFormed .reserved 0x7FFF#16) =
      (true, true, true) := by decide
theorem test_table_rows_exclude_each_other :
    opcodeTable.Pairwise fun r q => r.pattern &&& (r.mask &&& q.mask) ≠ q.pattern &&& (r.mask &&& q.mask) := by decide

/-! Assembler checks (30_encoding.md R113). -/

theorem test_n6_too_large_refused :
    assemble [] 0 ⟨.addi, [.reg 1, .reg 1, .const (decimal 32)]⟩ = .error (.outOfRange 32) := by decide
theorem test_n8_too_large_refused : assemble [] 0 ⟨.movi, [.reg 1, .const (decimal 200)]⟩ = .error (.outOfRange 200) := by decide
theorem test_n8_hex_accepted : assemble [] 0 ⟨.movi, [.reg 1, .const (.hex 0xC8)]⟩ = .ok (.movi 1 0xC8#8) := by decide
theorem test_port_negative_refused :
    assemble [] 0 ⟨.inp, [.reg 1, .const (decimal (-1))]⟩ = .error (.outOfRange (-1)) := by decide
theorem test_label_too_far_refused :
    assemble [("far", 0x0180)] 0x0100 ⟨.bz, [.reg 1, .const (.expr (.sym "far"))]⟩ = .error (.outOfRange 128) := by decide
/-- The model's choice of log 16: an expression as the operand of a branch, and a value that is no address. -/
theorem test_branch_operand_sum :
    assemble [("L", 0x0100)] 0x0100 ⟨.bz, [.reg 1, .const (.expr (.add (.sym "L") (.num 4)))]⟩ = .ok (.bz 1 4#8) ∧
      assemble [("L", 0xFFFF)] 0xFFFF ⟨.bz, [.reg 1, .const (.expr (.add (.sym "L") (.num 1)))]⟩ = .error (.outOfRange 65536) := by decide
theorem test_symbol_undefined_refused :
    assemble [] 0 ⟨.ld, [.reg 1, .mem (.expr (.add (.sym "L") (.num 4))) 2]⟩ = .error (.undefinedSymbol "L") := by decide
theorem test_operands_of_no_form_refused : assemble [] 0 ⟨.st, [.reg 1, .mem (decimal 0) 2]⟩ = .error .badOperands := by decide
/-- The examples of 30_encoding.md R116. -/
theorem test_assemble_R116 :
    ([⟨.add, [.reg 5, .reg 3, .reg 4]⟩, ⟨.addi, [.reg 5, .reg 3, .const (decimal (-2))]⟩, ⟨.ld, [.reg 7, .mem (decimal (-5)) 2]⟩,
      ⟨.st, [.mem (decimal (-5)) 2, .reg 7]⟩, ⟨.bnz, [.reg 5, .const (.expr (.sym "lazo"))]⟩, ⟨.inp, [.reg 3, .const (.hex 0xBA)]⟩,
      ⟨.out, [.const (.hex 0xBA), .reg 2]⟩, ⟨.not, [.reg 7, .reg 6]⟩] : List Statement).map
      (fun line => (assemble [("lazo", 0x0FF4)] 0x0FFF line).map encode) =
    [.ok 0x0AE4#16, .ok 0x2AFE#16, .ok 0x3EBB#16, .ok 0x4EBB#16, .ok 0x6BF5#16, .ok 0x76BA#16, .ok 0x75BA#16, .ok 0x0F98#16] := by
  decide
theorem test_written_form :
    ((statementOf 0 (.st 7 2 0b111011#6)).written, (statementOf 0 (.out 2 0xBA)).written, (Statement.mk .movi [.reg 4, .const (.hex 0xab)]).written) =
      ("ST -5(R2), R7", "OUT 186, R2", "MOVI R4, 0xab") := by decide

/-! ### Decoding: words written out bit by bit from 30_encoding.md R100 -/

theorem test_decode_arith_logic :
    [0b0000001010000011#16, 0b0000010011001100#16, 0b0000011100010101#16, 0b0000100101011000#16, 0b0000101110100111#16,
      0b0000110111101000#16, 0b0000111000110001#16, 0b0000000001111010#16].map (decode .reserved) =
    [.ok (.and 1 2 3), .ok (.or 2 3 4), .ok (.xor 3 4 5), .ok (.not 4 5), .ok (.add 5 6 7), .ok (.sub 6 7 0), .ok (.sha 7 0 1),
      .ok (.shl 0 1 2)] := by decide
theorem test_decode_compare :
    [0b0001001011000101#16, 0b0001010100001110#16, 0b0001011101011111#16, 0b0001100110100000#16, 0b0001101111101001#16].map
      (decode .reserved) =
    [.ok (.cmplt 1 3 5), .ok (.cmple 2 4 6), .ok (.cmpeq 3 5 7), .ok (.cmpltu 4 6 0), .ok (.cmpleu 5 7 1)] := by decide
theorem test_decode_two_register :
    [0b0010110001101111#16, 0b0011111010001101#16, 0b0100100011110111#16].map (decode .reserved) =
    [.ok (.addi 6 1 0b101111#6), .ok (.ld 7 2 0b001101#6), .ok (.st 4 3 0b110111#6)] := by decide
theorem test_decode_one_register :
    [0b0101101010011100#16, 0b0101110111001000#16, 0b0110001011111101#16, 0b0110010101100100#16, 0b0111011010011100#16,
      0b0111100101100101#16].map (decode .reserved) =
    [.ok (.movi 5 0b10011100#8), .ok (.movhi 6 0b11001000#8), .ok (.bz 1 0b11111101#8), .ok (.bnz 2 0b01100100#8),
      .ok (.inp 3 0b10011100), .ok (.out 4 0b01100101)] := by decide
theorem test_decode_unused :
    [0x8DD6#16, 0x1030#16, 0x0F9F#16].map (decode .reserved) =
    [.error (.opcode 0b1000#4), .error (.compareFunction 0b110#3), .error (.notSource 0b111#3)] := by decide
theorem test_decodeTableWord : decodeTableWord 16 0x4EBB = some (.st 7 2 0b111011#6) := by decide

/-! ### One step on the spec's vectors -/

/-- The state after reset with the PC at `pc`, the word `w` there, and these registers. -/
def placed (pc w : Word) (regs : List (Reg × Word)) : State :=
  (regs.foldl (fun s entry => s.writeReg entry.1 entry.2) (State.reset.setPc pc)).memWrite pc w

/-- What `look` sees in the state after one step from `s`, if there is one. -/
def afterStep {α : Type} (s : State) (look : State → α) : Option α :=
  match step s with
  | .next t => some (look t)
  | .fault _ => none
  | .refused _ => none

theorem test_S_AND_1 : afterStep (placed 0x0100 0x0F87 [(6, 0xF505), (7, 0xAAA3)]) (fun t => (t.readReg 7, t.pc)) =
    some (0xA001, 0x0101) := by decide
theorem test_S_OR_1 : afterStep (placed 0x0100 0x0F8F [(6, 0xF505), (7, 0xAAA3)]) (·.readReg 7) = some 0xFFA7 := by decide
theorem test_S_XOR_1 : afterStep (placed 0x0100 0x0491 [(1, 0xF505), (2, 0xAAA3)]) (·.readReg 2) = some 0x5FA6 := by decide
theorem test_S_NOT_1 : afterStep (placed 0x0100 0x0F98 [(6, 0xF505), (7, 0xAAA3)]) (·.readReg 7) = some 0x0AFA := by decide
theorem test_S_ADD_1 : afterStep (placed 0x0100 0x0AE4 [(3, 0xFFF9), (4, 0x0008), (5, 0xFFFF)]) (·.readReg 5) = some 0x0001 := by decide
theorem test_S_SUB_2 : afterStep (placed 0x0100 0x0A2C [(0, 0x0001), (4, 0x7FFF), (5, 0xFFFF)]) (·.readReg 5) = some 0x8002 := by decide
theorem test_S_SHA_1 : afterStep (placed 0x0100 0x08F5 [(3, 0xFFF9), (5, 0xFFFF)]) (·.readReg 4) = some 0xFFFC := by decide
theorem test_D_SH_7 : afterStep (placed 0x0100 0x02B3 [(2, 0x8000), (3, 0x0010)]) (·.readReg 1) = some 0xFFFF := by decide
theorem test_S_SHL_1 : afterStep (placed 0x0100 0x08FD [(3, 0xFFF9), (5, 0xFFFF)]) (·.readReg 4) = some 0x7FFC := by decide
theorem test_D_SH_20 : afterStep (placed 0x0100 0x02BB [(2, 0x1234), (3, 0x0024)]) (·.readReg 1) = some 0x2340 := by decide
theorem test_S_ADDI_1 : afterStep (placed 0x0100 0x2AFE [(3, 0xFFF9), (5, 0xFFFF)]) (·.readReg 5) = some 0xFFF7 := by decide
theorem test_S_CMPLT_1 : afterStep (placed 0x0100 0x1B03 [(3, 0xFFF9), (4, 0x0008), (5, 0xFFFF)]) (·.readReg 5) = some 0 := by decide
theorem test_D_CMP_1 : afterStep (placed 0x0100 0x1283 [(1, 0xFFFF), (2, 0x8000), (3, 0x7FFF)]) (·.readReg 1) = some 1 := by decide
theorem test_S_CMPLE_1 : afterStep (placed 0x0100 0x1ACC [(3, 0xFFF9), (4, 0x0008)]) (·.readReg 5) = some 1 := by decide
theorem test_D_CMP_14 : afterStep (placed 0x0100 0x128B [(1, 0xFFFF), (2, 0x1234), (3, 0x1234)]) (·.readReg 1) = some 1 := by decide
theorem test_S_CMPEQ_1 : afterStep (placed 0x0100 0x1A9C [(2, 0xFFF9), (4, 0x0008), (5, 0x3A00)]) (·.readReg 5) = some 0 := by decide
theorem test_S_CMPLTU_1 : afterStep (placed 0x0100 0x1B23 [(3, 0xFFF9), (4, 0x0008)]) (·.readReg 5) = some 1 := by decide
theorem test_S_CMPLEU_1 : afterStep (placed 0x0100 0x1AEC [(3, 0xFFF9), (4, 0x0008), (5, 0xFFFF)]) (·.readReg 5) = some 0 := by decide
theorem test_S_LD_1 : afterStep ((placed 0x0100 0x3EBB [(2, 0x3F02), (7, 0x0A34)]).memWrite 0x3EFD 0x3F00) (·.readReg 7) =
    some 0x3F00 := by decide
theorem test_D_LS_4 : afterStep ((placed 0x0100 0x32BF [(1, 0xAAAA)]).memWrite 0xFFFF 0x2468) (·.readReg 1) = some 0x2468 := by decide
theorem test_S_ST_2 : afterStep ((placed 0x0100 0x4EB0 [(2, 0x000A), (7, 0xFF00)]).memWrite 0xFFFA 0xFFFD) (·.memRead 0xFFFA) =
    some 0xFF00 := by decide
theorem test_D_LS_12 : afterStep (placed 0x0100 0x4281 [(1, 0x6200), (2, 0x0100)]) (·.fetch) = some 0x6200 := by decide
theorem test_S_BZ_1 : afterStep (placed 0x0FFF 0x6AF5 []) (·.pc) = some 0x0FF4 := by decide
theorem test_D_BR_10 : afterStep (placed 0xFFFF 0x6210 [(1, 0x0001)]) (·.pc) = some 0x0000 := by decide
theorem test_S_BNZ_1 : afterStep (placed 0x0FFF 0x6BF5 [(5, 0xFFFF)]) (·.pc) = some 0x0FF4 := by decide
theorem test_D_BR_9 : afterStep (placed 0xFFF0 0x637F [(1, 0xFFFF)]) (·.pc) = some 0x006F := by decide
theorem test_D_MOV_2 : afterStep (placed 0x0100 0x5280 [(1, 0xAAAA)]) (·.readReg 1) = some 0xFF80 := by decide
theorem test_D_MOV_6 : afterStep (placed 0x0100 0x5380 [(1, 0x00FF)]) (·.readReg 1) = some 0x80FF := by decide
theorem test_S_IN_1 :
    afterStep { placed 0x0100 0x76BA [(3, 0xAF09)] with input := State.reset.input.set 0xBA 0x8000 } (·.readReg 3) = some 0x8000 := by
  decide
theorem test_S_OUT_1 : afterStep (placed 0x0100 0x75BA [(2, 0x3F02)]) (fun t => (t.outputPort 0xBA, t.outTrace)) =
    some (0x3F02, [(0xBA, 0x3F02)]) := by decide
theorem test_D_IO_6 :
    afterStep { placed 0x0100 0x7310 [(1, 0x5555)] with input := State.reset.input.set 0x10 0x9999 }
      (fun t => (t.portIn 0x10, t.outputPort 0x10)) = some (0x9999, 0x5555) := by decide
theorem test_D_RES_10 : step (placed 0x0100 0x0F9F []) = .fault (.illegalInstruction 0x0100 0x0F9F) := rfl
theorem test_withFetchWord : afterStep (State.reset.withFetchWord 16 0x5A9C) (·.readReg 5) = some 0xFF9C := by decide

/-! ### Witnesses: states and operands that meet the hypotheses of the statements -/

/-- A state whose port 0x10 is one register with its input port. -/
def aliasedState (w : Word) : State :=
  { placed 0x0100 w [(1, 0x5555)] with
    config := { Config.default with ioPortsAliased := Config.default.ioPortsAliased.set 0x10 true } }

theorem witness_EveryDecodedWordIsItsEncoding : decode .reserved 0x0F98#16 = .ok (.not 7 6) := by decide
theorem witness_UnusedEncodingsAreRefusedByName :
    BitVec.getLsbD 0xFFFF#16 15 = true ∧ 0x1FFF#16 &&& 0xF038#16 = 0x1038#16 ∧
      (0x0019#16 &&& 0xF038#16 = 0x0018#16 ∧ 0x0019#16 &&& 0x0007#16 ≠ 0#16) ∧
      (BitVec.getLsbD 0x7FFF#16 15 = false ∧ 0x7FFF#16 &&& 0xF038#16 = 0x7038#16) := by decide
theorem witness_NotWritesTheComplement : 0b001#3 ≠ 0b000#3 ∧ 0b111#3 ≠ 0b000#3 := by decide
theorem witness_ShaShiftsArithmetically :
    (BitVec.extractLsb' 0 5 0x000F#16).toInt = (15 : Nat) ∧ (BitVec.extractLsb' 0 5 0x0020#16).toInt = (0 : Nat) ∧
      (BitVec.extractLsb' 0 5 0x001F#16).toInt = -(1 : Nat) ∧ (BitVec.extractLsb' 0 5 0x0010#16).toInt = -(16 : Nat) := by decide
theorem witness_ShlShiftsLogically :
    (State.reset.writeReg 3 0x000F).readReg 3 = 0x000F#16 ∧ (BitVec.extractLsb' 0 5 0x000F#16).toInt = (15 : Nat) ∧
      (BitVec.extractLsb' 0 5 0x0010#16).toInt = -(16 : Nat) := by decide
theorem witness_ShiftAmountIsTheLowFiveBitsSigned :
    ∀ i < 5, BitVec.getLsbD 0xFFE3#16 i = BitVec.getLsbD 0x0003#16 i := by decide
theorem witness_EffectiveAddressIsBasePlusN6Modulo65536 :
    (1 : Reg) ≠ 2 ∧ (∃ t, exec (.ld 1 2 0b100000#6) State.reset = .next t) ∧ ∃ t, exec (.st 1 2 0b011111#6) State.reset = .next t :=
  ⟨by decide, ⟨_, rfl⟩, ⟨_, rfl⟩⟩
theorem witness_StStoresTheRegisterAtTheEffectiveAddress : (placed 0x0100 0x4281 []).mem.wf = true := by decide
theorem witness_LoadReturnsTheLatestStore :
    (placed 0x0100 0x4281 []).mem.wf = true ∧
      effectiveAddress State.reset 1 0b111111#6 = effectiveAddress State.reset 2 0b111111#6 ∧
      effectiveAddress State.reset 1 0b111111#6 ≠ effectiveAddress State.reset 1 0b000000#6 := by decide
theorem witness_StoredWordIsFetchedByTheNextInstruction :
    (placed 0x0100 0x4281 [(2, 0x0100)]).mem.wf = true ∧ (placed 0x0100 0x4281 [(2, 0x0100)]).fetch = encode (.st 1 2 1#6) ∧
      effectiveAddress (placed 0x0100 0x4281 [(2, 0x0100)]) 2 1#6 = (placed 0x0100 0x4281 [(2, 0x0100)]).pc + 1#16 := by decide
theorem witness_TakenBranchGoesN8WordsFromItself :
    (State.reset.readReg 1 = 0x0000#16 ∧ ∃ t, exec (.bz 1 0x80#8) State.reset = .next t) ∧
      ((placed 0x0100 0 [(1, 1)]).readReg 1 ≠ 0x0000#16 ∧ ∃ t, exec (.bnz 1 0x7F#8) (placed 0x0100 0 [(1, 1)]) = .next t) :=
  ⟨⟨by decide, _, rfl⟩, by decide, _, rfl⟩
/-- BZ R1, 0x0105 at 0x0100 and BNZ R1, 0x0105 at 0x0101. -/
theorem witness_BzBnzPairAlwaysReachesItsLabel :
    ((placed 0x0100 0x6205 []).memWrite 0x0101 0x6304).fetch = encode (.bz 1 0x05#8) ∧
      ((placed 0x0100 0x6205 []).memWrite 0x0101 0x6304).memRead 0x0101 = encode (.bnz 1 0x04#8) ∧
      0x0100#16 + BitVec.signExtend 16 0x05#8 = 0x0100#16 + 1#16 + BitVec.signExtend 16 0x04#8 := by decide
theorem witness_OutWritesTheOutputPort : State.reset.aliasedPort 0xFF = false ∧ (0xFE : Port) ≠ 0xFF := by decide
theorem witness_InAfterOutFollowsPortAliasing :
    (placed 0x0100 0x7310 []).fetch = encode (.out 1 0x10) ∧ (placed 0x0100 0x7310 []).aliasedPort 0x10 = false ∧
      (aliasedState 0x7310).fetch = encode (.out 1 0x10) ∧ (aliasedState 0x7310).aliasedPort 0x10 = true := by decide
theorem witness_EnvironmentTakesATurnAfterIn : (placed 0x0100 0x76BA []).fetch = encode (.inp 3 0xBA) := by decide
theorem witness_StepRunsTheDecodedInstruction :
    decode State.reset.config.notBbbNonzero ((placed 0x0100 0x2AFE []).memRead 0x0100) = .ok (.addi 5 3 0b111110#6) ∧
      ∃ t, exec (.addi 5 3 0b111110#6) (placed 0x0100 0x2AFE []) = .next t := ⟨by decide, _, rfl⟩
theorem witness_StepHasExactlyTwoKindsOfOutcome :
    (placed 0x0100 0x2AFE []).fetch.wellFormed .reserved = true ∧ (placed 0x0100 0x8000 []).fetch.wellFormed .reserved = false := by
  decide
theorem witness_OnlyStChangesMemory :
    ∃ t, step (placed 0x0100 0x4281 [(1, 0x6200), (2, 0x0100)]) = .next t ∧
      t.memRead 0x0101 ≠ (placed 0x0100 0x4281 [(1, 0x6200), (2, 0x0100)]).memRead 0x0101 := ⟨_, rfl, by decide⟩
theorem witness_StepChangesOnlyTheDestinationRegister :
    decode .reserved (placed 0x0100 0x2AFE []).fetch = .ok (.addi 5 3 0b111110#6) ∧ (∃ t, step (placed 0x0100 0x2AFE []) = .next t) ∧
      Instr.dest? (.addi 5 3 0b111110#6) ≠ some 3 := ⟨by decide, ⟨_, rfl⟩, by decide⟩
theorem witness_OnlyTakenBranchesDivertThePc :
    ∃ t, step (placed 0x0FFF 0x6AF5 []) = .next t ∧ t.pc ≠ (placed 0x0FFF 0x6AF5 []).pc + 1#16 := ⟨_, rfl, by decide⟩
theorem witness_OnlyOutChangesOutputPorts :
    ∃ t, step (placed 0x0100 0x75BA [(2, 0x3F02)]) = .next t ∧ State.reset.aliasedPort 0xBA = false ∧
      t.outputPort 0xBA ≠ (placed 0x0100 0x75BA [(2, 0x3F02)]).outputPort 0xBA ∧
      t.outTrace ≠ (placed 0x0100 0x75BA [(2, 0x3F02)]).outTrace := ⟨_, rfl, by decide⟩
theorem witness_InputPortsChangeOnlyAtPortInstructions :
    (∃ t, step (placed 0x0100 0x75BA []) = .next t) ∧ (∀ d p, (placed 0x0100 0x75BA []).fetch ≠ encode (.inp d p)) ∧
      ∀ p, (placed 0x0100 0x75BA []).aliasedPort p = false := by
  refine ⟨⟨_, rfl⟩, ?_, ?_⟩
  · intro d p same
    have kept := congrArg (· &&& 0xF100#16) same
    simp only [encode, word1Reg_mask] at kept
    exact absurd kept (by decide)
  · intro p
    exact Bank.get_fill false p
theorem witness_InputMattersToInAlone :
    (∀ d p, Instr.out 2 0xBA ≠ .inp d p) ∧ ∃ t, exec (.out 2 0xBA) State.reset = .next t := ⟨by simp, _, rfl⟩
theorem witness_StepKeepsTheParameters : ∃ t, step (aliasedState 0x2AFE) = .next t := ⟨_, rfl⟩
theorem witness_StepKeepsTheMemoryCanonical :
    (placed 0x0100 0x4281 []).mem.wf = true ∧ ∃ t, step (placed 0x0100 0x4281 []) = .next t := ⟨by decide, _, rfl⟩
theorem witness_StepKeepsOutputsAtTheirLastValue :
    (placed 0x0100 0x75BA []).outputsFollowTrace ∧ ∃ t, step (placed 0x0100 0x75BA []) = .next t :=
  ⟨fun _ _ _ last => (nomatch last), _, rfl⟩
theorem witness_StartMeetsTheInvariants : StartParams.modelsChoice.initMem.wf = true := rfl
theorem witness_MemoriesThatReadAlikeAreEqual :
    (Memory.ofImage [(5, 1), (2, 7)]).wf = true ∧ Memory.ofImage [(5, 1), (2, 7)] = Memory.ofImage [(2, 7), (9, 0), (5, 1)] := by decide
theorem witness_ImageReadsAsItSays :
    ([(5, 1), (2, 7)].map Prod.fst : List Word).Nodup ∧ ((2, 7) : Word × Word) ∈ [((5, 1) : Word × Word), (2, 7)] := by decide
theorem witness_FixedPointsAreTakenSelfBranches :
    (placed 0x0100 0x6200 []).atSelfBranch ∧ (placed 0x0100 0x6300 [(1, 1)]).atSelfBranch :=
  ⟨⟨1, .inl (by decide)⟩, ⟨1, .inr (by decide)⟩⟩
/-- Both bounds of each range, and the first number beyond each. -/
theorem witness_ConstantsAreAcceptedInTheirRanges :
    ([-33, -32, 31, 32] : List Int).map (fun v => (assemble [] 0 ⟨.addi, [.reg 1, .reg 2, .const (decimal v)]⟩).toOption) =
        [none, some (.addi 1 2 0x20#6), some (.addi 1 2 0x1F#6), none] ∧
      ([-129, -128, 127, 128] : List Int).map (fun v => (assemble [] 0 ⟨.movi, [.reg 1, .const (decimal v)]⟩).toOption) =
        [none, some (.movi 1 0x80#8), some (.movi 1 0x7F#8), none] ∧
      ([-1, 0, 255, 256] : List Int).map (fun v => (assemble [] 0 ⟨.movhi, [.reg 1, .const (decimal v)]⟩).toOption) =
        [none, some (.movhi 1 0x00#8), some (.movhi 1 0xFF#8), none] := by decide
theorem witness_BranchToALabelGoesToIt :
    List.lookup "lazo" [("lazo", ((0x0FF4#16).toNat : Int))] = some ((0x0FF4#16).toNat : Int) ∧
      (-128 ≤ (0x0FF4#16 - 0x0FFF#16).toInt ∧ (0x0FF4#16 - 0x0FFF#16).toInt ≤ 127) ∧ (0x017F#16 - 0x0100#16).toInt = 127 ∧
      (0x0080#16 - 0x0100#16).toInt = -128 ∧ (0x0180#16 - 0x0100#16).toInt = 128 ∧ (0x007F#16 - 0x0100#16).toInt = -129 ∧
      State.reset.readReg 1 = 0x0000#16 ∧ (State.reset.writeReg 1 1).readReg 1 ≠ 0x0000#16 := by decide

end Sys2Proof.Tests
end

section
/-! PROOFS. What every instruction can do to the state, and what every step keeps. -/

namespace Sys2Proof.Machine

/-- Everything an executed instruction can do: ST writes one word of memory, OUT writes one port, BZ and BNZ set the PC, and each
of the other instructions writes one register. -/
theorem exec_next_cases {i : Instr} {s t : State} (h : exec i s = .next t) :
    (∃ d v, t = (s.writeReg d v).advance) ∨
    (∃ b a n6, i = .st b a n6 ∧ t = (s.memWrite (effectiveAddress s a n6) (s.readReg b)).advance) ∨
    (∃ b p, i = .out b p ∧ t = (s.portOut p (s.readReg b)).advance) ∨
    (∃ b n8, i = .bz b n8 ∧
      t = s.setPc (if !booleanOf (s.readReg b) then branchTarget s n8 else s.pc + 1#16)) ∨
    (∃ b n8, i = .bnz b n8 ∧
      t = s.setPc (if booleanOf (s.readReg b) then branchTarget s n8 else s.pc + 1#16)) := by
  cases i with
  | st b a n6 => exact .inr (.inl ⟨b, a, n6, rfl, goOn_next h⟩)
  | out b p => exact .inr (.inr (.inl ⟨b, p, rfl, goOn_next h⟩))
  | bz b n8 => exact .inr (.inr (.inr (.inl ⟨b, n8, rfl, branchTo_next h⟩)))
  | bnz b n8 => exact .inr (.inr (.inr (.inr ⟨b, n8, rfl, branchTo_next h⟩)))
  | _ => exact .inl ⟨_, _, writeAndAdvance_next h⟩

/-- No update an instruction makes reaches the parameters (00_scope.md R3). -/
theorem exec_keeps_config {i : Instr} {s t : State} (h : exec i s = .next t) : t.config = s.config := by
  obtain ⟨d, v, rfl⟩ | ⟨b, a, n6, -, rfl⟩ | ⟨b, p, -, rfl⟩ | ⟨b, n8, -, rfl⟩ | ⟨b, n8, -, rfl⟩ := exec_next_cases h
  · rw [advance_config, writeReg_config]
  · rw [advance_config, memWrite_config]
  · rw [advance_config, portOut_config]
  · rw [setPc_config]
  · rw [setPc_config]

/-- Settles O46: neither the instruction nor the turn of the environment after it changes the parameters. -/
theorem stepKeepsTheParameters : Obligations.StepKeepsTheParameters := by
  intro s u h
  obtain ⟨i, -, after⟩ := step_next h
  obtain ⟨t, executed, ⟨-, rfl⟩ | ⟨-, rfl⟩⟩ := afterInstruction_next after
  · rw [environmentTurn_config, exec_keeps_config executed]
  · exact exec_keeps_config executed

end Sys2Proof.Machine
end

section
/-! PROOFS. A word that decodes is the encoding of what it decodes to. -/

namespace Sys2Proof

/-- The number that the three bits of a register field name is written with those bits. -/
@[simp] theorem Reg.bits_ofBits (field : BitVec 3) : (Reg.ofBits field).bits = field := BitVec.ofNat_toNat 3 field

/-- The number that the eight bits of a port field name is written with those bits. -/
@[simp] theorem Port.bits_ofBits (field : BitVec 8) : (Port.ofBits field).bits = field := BitVec.ofNat_toNat 8 field

/-- The fields of format 3-Reg make up the word (30_encoding.md R92). -/
theorem word3Reg_fields (w : Word) :
    word3Reg w.opcodeField (Reg.ofBits w.regFieldD) (Reg.ofBits w.regFieldA) w.functionField w.regFieldB = w := by
  apply BitVec.eq_of_getLsbD_eq
  intro k hk
  simp only [word3Reg, Reg.bits_ofBits, BitVec.getLsbD_append]
  interval_cases k <;> simp [Word.opcodeField, Word.regFieldD, Word.regFieldA, Word.functionField, Word.regFieldB]

/-- The fields of format 2-Reg make up the word (30_encoding.md R93). -/
theorem word2Reg_fields (w : Word) :
    word2Reg w.opcodeField (Reg.ofBits w.regFieldD) (Reg.ofBits w.regFieldA) w.n6Field = w := by
  apply BitVec.eq_of_getLsbD_eq
  intro k hk
  simp only [word2Reg, Reg.bits_ofBits, BitVec.getLsbD_append]
  interval_cases k <;> simp [Word.opcodeField, Word.regFieldD, Word.regFieldA, Word.n6Field]

/-- The fields of format 1-Reg make up the word (30_encoding.md R94). -/
theorem word1Reg_fields (w : Word) :
    word1Reg w.opcodeField (Reg.ofBits w.regFieldD) (BitVec.ofBool w.extensionBit) w.n8Field = w := by
  apply BitVec.eq_of_getLsbD_eq
  intro k hk
  simp only [word1Reg, Reg.bits_ofBits, BitVec.getLsbD_append]
  interval_cases k <;> simp [Word.opcodeField, Word.regFieldD, Word.extensionBit, Word.n8Field]

/-- 0b111 is the one function left beside the seven that `decodeArithLogic` lists. -/
theorem eq_last_function {f : BitVec 3} (and : f ≠ 0b000#3) (or : f ≠ 0b001#3) (xor : f ≠ 0b010#3) (not : f ≠ 0b011#3)
    (add : f ≠ 0b100#3) (sub : f ≠ 0b101#3) (sha : f ≠ 0b110#3) : f = 0b111#3 := by
  bv_omega

/-- Opcode 0000: an instruction is written with the fields it was decoded from, but for the bits bbb of a NOT where NOT_BBB_NONZERO
lets them be anything (30_encoding.md R105). -/
theorem encode_of_decodeArithLogic {notBbb : NotBbbNonzero} {f bField : BitVec 3} {d a : Reg} {i : Instr}
    (h : decodeArithLogic notBbb f d a bField = .ok i) (determined : notBbb = .reserved ∨ i.mnemonic ≠ .not) :
    encode i = word3Reg 0b0000#4 d a f bField := by
  unfold decodeArithLogic at h
  split at h
  case h_4 =>
    split at h
    next zeroOrIgnored =>
      cases h
      obtain rfl | rfl := zeroOrIgnored
      · rfl
      · simp [Instr.mnemonic] at determined
    next => cases h
  case h_8 and or xor not add sub sha =>
    cases h
    rw [eq_last_function and or xor not add sub sha, encode, Reg.bits_ofBits]
  all_goals
    cases h
    rw [encode, Reg.bits_ofBits]

/-- Opcode 0001: a comparison is written with the fields it was decoded from. -/
theorem encode_of_decodeCompare {f : BitVec 3} {d a b : Reg} {i : Instr} (h : decodeCompare f d a b = .ok i) :
    encode i = word3Reg 0b0001#4 d a f b.bits := by
  unfold decodeCompare at h
  split at h <;> cases h <;> rfl

/-- Every bit of a word that decodes is significant (30_encoding.md R107), but for the bits bbb of a NOT where NOT_BBB_NONZERO lets
them be anything (R105). -/
theorem encode_of_decode {notBbb : NotBbbNonzero} {w : Word} {i : Instr} (h : decode notBbb w = .ok i)
    (determined : notBbb = .reserved ∨ i.mnemonic ≠ .not) : encode i = w := by
  have two := word2Reg_fields w
  have one := word1Reg_fields w
  unfold decode at h
  split at h
  case h_1 opcode =>
    rw [encode_of_decodeArithLogic h determined, ← opcode, word3Reg_fields]
  case h_2 opcode =>
    rw [encode_of_decodeCompare h, ← opcode, Reg.bits_ofBits, word3Reg_fields]
  case h_3 opcode | h_4 opcode | h_5 opcode =>
    cases h
    rwa [opcode] at two
  case h_6 opcode | h_7 opcode | h_8 opcode =>
    rw [opcode] at one
    cases bit : w.extensionBit <;> rw [bit] at h one <;> cases h <;> simpa [encode] using one
  case h_9 => cases h

end Sys2Proof

namespace Sys2Proof.Machine

/-- A step whose word decodes is the instruction and what follows it. -/
theorem step_of_decode {s : State} {i : Instr} (h : decode s.config.notBbbNonzero s.fetch = .ok i) :
    step s = afterInstruction i (exec i s) := by
  rw [step, h]

/-- After an instruction that answers `t` comes the environment's turn where it takes one, and nothing else. -/
theorem afterInstruction_of_next {i : Instr} {r : Result} {t : State} (h : r = .next t) :
    afterInstruction i r = .next (if environmentActsAfter i t then t.environmentTurn else t) := by
  rw [h, afterInstruction]

/-- Settles O37: fetch and decode choose the instruction, and `afterInstruction` adds the environment's turn to what it answers. -/
theorem stepRunsTheDecodedInstruction : Obligations.StepRunsTheDecodedInstruction := by
  intro s t i decoded executed
  rw [step_of_decode decoded, afterInstruction_of_next executed]

/-- If a step answers a next state, its instruction answered one and `u` is that state or what the environment's turn makes
of it. -/
theorem step_next_exec {s u : State} (h : step s = .next u) :
    ∃ i t, decode s.config.notBbbNonzero s.fetch = .ok i ∧ exec i s = .next t ∧ (u = t.environmentTurn ∨ u = t) := by
  obtain ⟨i, decoded, after⟩ := step_next h
  obtain ⟨t, executed, ⟨-, turn⟩ | ⟨-, noTurn⟩⟩ := afterInstruction_next after
  · exact ⟨i, t, decoded, executed, .inl turn⟩
  · exact ⟨i, t, decoded, executed, .inr noTurn⟩

/-- An instruction with a destination register writes it and no other part of the state but the PC. -/
theorem exec_next_of_dest {i : Instr} {d : Reg} {s t : State} (dest : i.dest? = some d) (h : exec i s = .next t) :
    ∃ v, t = (s.writeReg d v).advance := by
  cases i with
  | st | bz | bnz | out => cases dest
  | _ => cases dest; exact ⟨_, writeAndAdvance_next h⟩

/-- ST, OUT, BZ and BNZ write no general register (10_state.md R33). -/
theorem exec_regs_of_no_dest {i : Instr} {s t : State} (dest : i.dest? = none) (h : exec i s = .next t) : t.regs = s.regs := by
  cases i with
  | st => rw [goOn_next h, advance_regs, memWrite_regs]
  | out => rw [goOn_next h, advance_regs, portOut_regs]
  | bz | bnz => rw [branchTo_next h, setPc_regs]
  | _ => cases dest

/-- An instruction leaves every register but its destination as it was. -/
theorem exec_readReg_of_not_dest {i : Instr} {r : Reg} {s t : State} (other : i.dest? ≠ some r) (h : exec i s = .next t) :
    t.readReg r = s.readReg r := by
  cases dest : i.dest? with
  | none => rw [State.readReg, exec_regs_of_no_dest dest h, State.readReg]
  | some d =>
    obtain ⟨v, rfl⟩ := exec_next_of_dest dest h
    have ne : r ≠ d := fun same => other (same ▸ dest)
    rw [readReg_advance, readReg_writeReg_of_ne s v ne]

/-- Settles O41: the decoded instruction writes its destination at most, and the environment's turn writes no register. -/
theorem stepChangesOnlyTheDestinationRegister : Obligations.StepChangesOnlyTheDestinationRegister := by
  intro s u i r decoded stepped other
  obtain ⟨j, t, decoded', executed, after⟩ := step_next_exec stepped
  obtain rfl : i = j := Except.ok.inj (decoded.symm.trans decoded')
  obtain rfl | rfl := after
  · rw [readReg_environmentTurn, exec_readReg_of_not_dest other executed]
  · exact exec_readReg_of_not_dest other executed

/-- `booleanOf` is false of the word 0 alone. -/
theorem booleanOf_eq_false_iff (x : Word) : booleanOf x = false ↔ x = 0x0000#16 := by simp [booleanOf]

/-- `booleanOf` is true of every word but 0. -/
theorem booleanOf_eq_true_iff (x : Word) : booleanOf x = true ↔ x ≠ 0x0000#16 := by simp [booleanOf]

/-- An instruction that leaves a PC other than PC + 1 is a branch whose condition holds, and it leaves the branch's target. -/
theorem exec_diverts {i : Instr} {s t : State} (h : exec i s = .next t) (diverted : t.pc ≠ s.pc + 1#16) :
    ∃ b n8, ((i = .bz b n8 ∧ s.readReg b = 0x0000#16) ∨ (i = .bnz b n8 ∧ s.readReg b ≠ 0x0000#16)) ∧
      t.pc = branchTarget s n8 := by
  obtain ⟨d, v, rfl⟩ | ⟨b, a, n6, -, rfl⟩ | ⟨b, p, -, rfl⟩ | ⟨b, n8, rfl, rfl⟩ | ⟨b, n8, rfl, rfl⟩ := exec_next_cases h
  · exact absurd rfl diverted
  · exact absurd rfl diverted
  · exact absurd rfl diverted
  · cases condition : booleanOf (s.readReg b) with
    | false => exact ⟨b, n8, .inl ⟨rfl, (booleanOf_eq_false_iff _).mp condition⟩, by simp⟩
    | true => simp [condition] at diverted
  · cases condition : booleanOf (s.readReg b) with
    | false => simp [condition] at diverted
    | true => exact ⟨b, n8, .inr ⟨rfl, (booleanOf_eq_true_iff _).mp condition⟩, by simp⟩

/-- Settles O42: only a branch that is taken diverts the PC, the environment's turn does not, and a word that decodes to a branch is
its encoding. -/
theorem onlyTakenBranchesDivertThePc : Obligations.OnlyTakenBranchesDivertThePc := by
  intro s u stepped diverted
  obtain ⟨i, t, decoded, executed, after⟩ := step_next_exec stepped
  have pc : u.pc = t.pc := by
    obtain rfl | rfl := after
    · exact environmentTurn_pc t
    · rfl
  rw [pc] at diverted ⊢
  obtain ⟨b, n8, ⟨rfl, zero⟩ | ⟨rfl, nonzero⟩, target⟩ := exec_diverts executed diverted
  · exact ⟨b, n8, .inl ⟨(encode_of_decode decoded (.inr nofun)).symm, zero⟩, target⟩
  · exact ⟨b, n8, .inr ⟨(encode_of_decode decoded (.inr nofun)).symm, nonzero⟩, target⟩

/-- Any branch sets the PC and changes nothing else. -/
theorem branchTo_eq (taken : Bool) (target : Word) (s : State) :
    branchTo taken target s = .next (s.setPc (if taken then target else s.pc + 1#16)) := by
  cases taken <;> rfl

/-- Settles O45: an instruction but IN computes what it writes from registers, PC, memory and parameters; the content of INPUT is
carried along, and OUT may write into it. -/
theorem inputMattersToInAlone : Obligations.InputMattersToInAlone := by
  intro i s t v notIn executed
  cases i with
  | inp d p => exact absurd rfl (notIn d p)
  | bz | bnz => rw [branchTo_next executed]; exact ⟨_, branchTo_eq _ _ _, rfl, rfl, rfl, rfl, rfl⟩
  | st | out => rw [goOn_next executed]; exact ⟨_, goOn_eq _, rfl, rfl, rfl, rfl, rfl⟩
  | _ => rw [writeAndAdvance_next executed]; exact ⟨_, writeAndAdvance_eq _ _ _, rfl, rfl, rfl, rfl, rfl⟩

end Sys2Proof.Machine
end

section
/-! PROOFS. The decoder reads every instruction back from its word (spec 30_encoding.md R91 to R100, R116): the fields of a word that
the encoder writes are the fields it is given. -/

namespace Sys2Proof

/-- The three bits that write a register's number name that register. -/
@[simp] theorem Reg.ofBits_bits (r : Reg) : Reg.ofBits r.bits = r := Fin.ext (Nat.mod_eq_of_lt r.isLt)

/-- The eight bits that write a port's number name that port. -/
@[simp] theorem Port.ofBits_bits (p : Port) : Port.ofBits p.bits = p := Fin.ext (Nat.mod_eq_of_lt p.isLt)

section Fields

open BitVec (extractLsb'_append_eq_of_le extractLsb'_append_eq_right extractLsb'_eq_self)

variable (c : BitVec 4) (d a : Reg) (f b : BitVec 3) (n6 : BitVec 6) (e : BitVec 1) (n8 : BitVec 8)

@[simp] theorem opcodeField_word3Reg : (word3Reg c d a f b).opcodeField = c := by
  rw [Word.opcodeField, word3Reg]
  iterate 4 rw [extractLsb'_append_eq_of_le (by decide)]
  exact extractLsb'_eq_self

@[simp] theorem regFieldD_word3Reg : (word3Reg c d a f b).regFieldD = d.bits := by
  rw [Word.regFieldD, word3Reg]
  iterate 3 rw [extractLsb'_append_eq_of_le (by decide)]
  exact extractLsb'_append_eq_right

@[simp] theorem regFieldA_word3Reg : (word3Reg c d a f b).regFieldA = a.bits := by
  rw [Word.regFieldA, word3Reg]
  iterate 2 rw [extractLsb'_append_eq_of_le (by decide)]
  exact extractLsb'_append_eq_right

@[simp] theorem functionField_word3Reg : (word3Reg c d a f b).functionField = f := by
  rw [Word.functionField, word3Reg, extractLsb'_append_eq_of_le (by decide)]
  exact extractLsb'_append_eq_right

@[simp] theorem regFieldB_word3Reg : (word3Reg c d a f b).regFieldB = b := extractLsb'_append_eq_right

@[simp] theorem opcodeField_word2Reg : (word2Reg c d a n6).opcodeField = c := by
  rw [Word.opcodeField, word2Reg]
  iterate 3 rw [extractLsb'_append_eq_of_le (by decide)]
  exact extractLsb'_eq_self

@[simp] theorem regFieldD_word2Reg : (word2Reg c d a n6).regFieldD = d.bits := by
  rw [Word.regFieldD, word2Reg]
  iterate 2 rw [extractLsb'_append_eq_of_le (by decide)]
  exact extractLsb'_append_eq_right

@[simp] theorem regFieldA_word2Reg : (word2Reg c d a n6).regFieldA = a.bits := by
  rw [Word.regFieldA, word2Reg, extractLsb'_append_eq_of_le (by decide)]
  exact extractLsb'_append_eq_right

@[simp] theorem n6Field_word2Reg : (word2Reg c d a n6).n6Field = n6 := extractLsb'_append_eq_right

@[simp] theorem opcodeField_word1Reg : (word1Reg c d e n8).opcodeField = c := by
  rw [Word.opcodeField, word1Reg]
  iterate 3 rw [extractLsb'_append_eq_of_le (by decide)]
  exact extractLsb'_eq_self

@[simp] theorem regFieldD_word1Reg : (word1Reg c d e n8).regFieldD = d.bits := by
  rw [Word.regFieldD, word1Reg]
  iterate 2 rw [extractLsb'_append_eq_of_le (by decide)]
  exact extractLsb'_append_eq_right

@[simp] theorem extensionBit_word1Reg : (word1Reg c d e n8).extensionBit = e.getLsbD 0 := by
  simp only [Word.extensionBit, word1Reg, BitVec.getLsbD_append]
  rfl

@[simp] theorem n8Field_word1Reg : (word1Reg c d e n8).n8Field = n8 := extractLsb'_append_eq_right

end Fields

/-- The word of an instruction decodes to it (30_encoding.md R116), whatever NOT_BBB_NONZERO is: a NOT is written with bbb = 000. -/
theorem decode_encode (notBbb : NotBbbNonzero) (i : Instr) : decode notBbb (encode i) = .ok i := by
  cases i with
  | and | or | xor | not | add | sub | sha | shl => simp [encode, decode, decodeArithLogic]
  | cmplt | cmple | cmpeq | cmpltu | cmpleu => simp [encode, decode, decodeCompare]
  | _ => simp [encode, decode]

end Sys2Proof
end

section
/-! PROOFS. The family of 20_memory.md: what memory holds after a step, and what the ports hold. -/

namespace Sys2Proof.Machine

/-! ### Memories as functions of the address -/

/-- Where a canonical list reads otherwise than unlisted, its first address is reached. -/
theorem le_of_lookupCell_ne {low a : Nat} {cells : List (Nat × Word)} (h : canonicalFrom low cells = true)
    (listed : lookupCell cells a ≠ Config.unlistedWord) : low ≤ a :=
  Nat.le_of_not_lt fun below => listed (lookupCell_below h below)

@[simp] theorem lookupCell_cons_self (k : Nat) (v : Word) (rest : List (Nat × Word)) : lookupCell ((k, v) :: rest) k = v := by
  simp [lookupCell]

theorem lookupCell_cons_of_ne {k a : Nat} (v : Word) (rest : List (Nat × Word)) (ne : k ≠ a) :
    lookupCell ((k, v) :: rest) a = lookupCell rest a := by
  simp [lookupCell, ne]

/-- A canonical list stays canonical with its first address as the bound. -/
theorem canonicalFrom_head {low k : Nat} {v : Word} {rest : List (Nat × Word)} (h : canonicalFrom low ((k, v) :: rest) = true) :
    canonicalFrom k ((k, v) :: rest) = true := by
  rw [canonicalFrom_cons_iff] at h ⊢
  exact ⟨le_rfl, h.2⟩

/-- The first address of a canonical list is the least that reads otherwise than unlisted. -/
theorem head_le_of_lookupCell_ne {low k a : Nat} {v : Word} {rest : List (Nat × Word)}
    (h : canonicalFrom low ((k, v) :: rest) = true) (listed : lookupCell ((k, v) :: rest) a ≠ Config.unlistedWord) : k ≤ a :=
  le_of_lookupCell_ne (canonicalFrom_head h) listed

/-- Canonical lists that read alike below 65536 are equal: each one's first address is the least that reads otherwise than unlisted,
so the two lists begin with the same cell, and beyond it they read alike again. -/
theorem eq_of_lookupCell_eq {low : Nat} {xs ys : List (Nat × Word)} (hx : canonicalFrom low xs = true)
    (hy : canonicalFrom low ys = true) (alike : ∀ a < 65536, lookupCell xs a = lookupCell ys a) : xs = ys := by
  induction xs generalizing low ys with
  | nil =>
    cases ys with
    | nil => rfl
    | cons cell rest =>
      obtain ⟨k, v⟩ := cell
      obtain ⟨-, bound, listed, -⟩ := (canonicalFrom_cons_iff ..).mp hy
      have reads := alike k bound
      rw [lookupCell_cons_self] at reads
      exact absurd reads.symm listed
  | cons cell xs ih =>
    obtain ⟨k, v⟩ := cell
    obtain ⟨-, k_bound, v_listed, xs_canonical⟩ := (canonicalFrom_cons_iff ..).mp hx
    have reads_k := alike k k_bound
    rw [lookupCell_cons_self] at reads_k
    cases ys with
    | nil => exact absurd reads_k v_listed
    | cons cell' ys =>
      obtain ⟨k', v'⟩ := cell'
      obtain ⟨-, k'_bound, v'_listed, ys_canonical⟩ := (canonicalFrom_cons_iff ..).mp hy
      have reads_k' := alike k' k'_bound
      rw [lookupCell_cons_self] at reads_k'
      obtain rfl : k = k' :=
        le_antisymm (head_le_of_lookupCell_ne hx (reads_k' ▸ v'_listed)) (head_le_of_lookupCell_ne hy (reads_k ▸ v_listed))
      obtain rfl : v = v' := reads_k.trans (lookupCell_cons_self ..)
      have rest_alike : ∀ a < 65536, lookupCell xs a = lookupCell ys a := by
        intro a a_bound
        by_cases beyond : k < a
        · simpa [lookupCell_cons_of_ne _ _ beyond.ne] using alike a a_bound
        · have upTo : a < k + 1 := by omega
          rw [lookupCell_below xs_canonical upTo, lookupCell_below ys_canonical upTo]
      rw [ih xs_canonical ys_canonical rest_alike]

/-- Settles O50: a memory's reads are the look-ups in its cells at the addresses below 65536. -/
theorem memoriesThatReadAlikeAreEqual : Obligations.MemoriesThatReadAlikeAreEqual := by
  rintro ⟨xs⟩ ⟨ys⟩ hx hy alike
  refine congrArg Memory.mk (eq_of_lookupCell_eq hx hy fun a bound => ?_)
  simpa [Memory.read, Nat.mod_eq_of_lt bound] using alike (BitVec.ofNat 16 a)

/-! ### Memory over a step -/

/-- An instruction leaves memory as it was, or it is an ST and writes the one word at its effective address. -/
theorem exec_mem_cases {i : Instr} {s t : State} (h : exec i s = .next t) :
    t.mem = s.mem ∨ ∃ b a n6, i = .st b a n6 ∧ t.mem = s.mem.write (effectiveAddress s a n6) (s.readReg b) := by
  obtain ⟨d, v, rfl⟩ | ⟨b, a, n6, rfl, rfl⟩ | ⟨b, p, -, rfl⟩ | ⟨b, n8, -, rfl⟩ | ⟨b, n8, -, rfl⟩ := exec_next_cases h
  · exact .inl rfl
  · exact .inr ⟨b, a, n6, rfl, rfl⟩
  · exact .inl rfl
  · exact .inl rfl
  · exact .inl rfl

/-- A step leaves memory as it was, or the fetched word encodes an ST and the step writes the one word at its effective address:
the environment's turn does not reach memory (D18). -/
theorem step_mem_cases {s u : State} (h : step s = .next u) :
    u.mem = s.mem ∨ ∃ b a n6, s.fetch = encode (.st b a n6) ∧ u.mem = s.mem.write (effectiveAddress s a n6) (s.readReg b) := by
  obtain ⟨i, t, decoded, executed, after⟩ := step_next_exec h
  have mem : u.mem = t.mem := by
    obtain rfl | rfl := after
    · exact environmentTurn_mem t
    · rfl
  rw [mem]
  obtain same | ⟨b, a, n6, rfl, written⟩ := exec_mem_cases executed
  · exact .inl same
  · exact .inr ⟨b, a, n6, (encode_of_decode decoded (.inr nofun)).symm, written⟩

/-- Settles O47: a step writes memory with `Memory.write` alone, which keeps the canonical form. -/
theorem stepKeepsTheMemoryCanonical : Obligations.StepKeepsTheMemoryCanonical := by
  intro s u canonical stepped
  obtain same | ⟨b, a, n6, -, written⟩ := step_mem_cases stepped
  · rwa [same]
  · rw [written]
    exact wf_write canonical _ _

/-- Settles O40: where an address reads otherwise after the step, the step's one write was to that address. -/
theorem onlyStChangesMemory : Obligations.OnlyStChangesMemory := by
  intro s u x stepped changed
  unfold State.memRead at changed
  obtain same | ⟨b, a, n6, fetched, written⟩ := step_mem_cases stepped
  · rw [same] at changed
    exact absurd rfl changed
  · refine ⟨b, a, n6, fetched, ?_⟩
    by_contra elsewhere
    rw [written, read_write_of_ne _ _ elsewhere] at changed
    exact changed rfl

/-! ### Loads, stores and fetches after a store -/

theorem exec_st (b a : Reg) (n6 : BitVec 6) (s : State) :
    exec (.st b a n6) s = .next (s.memWrite (effectiveAddress s a n6) (s.readReg b)).advance := rfl

theorem exec_ld (d a : Reg) (n6 : BitVec 6) (s : State) :
    exec (.ld d a n6) s = .next (s.writeReg d (s.memRead (effectiveAddress s a n6))).advance := rfl

/-- Any address after a write to a canonical memory: the word written at its address, the old word elsewhere (20_memory.md R71). -/
theorem memRead_memWrite {s : State} (canonical : s.mem.wf = true) (a v x : Word) :
    (s.memWrite a v).memRead x = if x = a then v else s.memRead x := by
  split
  next same => rw [same]; exact read_write_self canonical a v
  next ne => exact read_write_of_ne s.mem v ne

@[simp] theorem effectiveAddress_memWrite (s : State) (x v : Word) (a : Reg) (n6 : BitVec 6) :
    effectiveAddress (s.memWrite x v) a n6 = effectiveAddress s a n6 := rfl

@[simp] theorem effectiveAddress_advance (s : State) (a : Reg) (n6 : BitVec 6) :
    effectiveAddress s.advance a n6 = effectiveAddress s a n6 := rfl

/-- Settles O24: the load's address is formed from registers that the store left alone. -/
theorem loadReturnsTheLatestStore : Obligations.LoadReturnsTheLatestStore := by
  intro s b a d c n m canonical
  refine ⟨_, _, exec_st b a n s, exec_ld d c m _, ?_⟩
  rw [readReg_advance, readReg_writeReg_self, effectiveAddress_advance, effectiveAddress_memWrite, memRead_advance,
    memRead_memWrite canonical]

/-- A step whose fetched word encodes `i` is `i` and, where the environment takes one, its turn. -/
theorem step_of_fetch {s t : State} {i : Instr} (fetched : s.fetch = encode i) (executed : exec i s = .next t) :
    step s = .next (if environmentActsAfter i t then t.environmentTurn else t) := by
  rw [step_of_decode (fetched ▸ decode_encode _ i), afterInstruction_of_next executed]

/-- Settles O25: fetch is the same read as a load's, and the store's step leaves the PC at the word it wrote. -/
theorem storedWordIsFetchedByTheNextInstruction : Obligations.StoredWordIsFetchedByTheNextInstruction := by
  intro s b a n canonical fetched next
  refine ⟨_, step_of_fetch fetched (exec_st b a n s), rfl, ?_⟩
  change (s.memWrite (effectiveAddress s a n) (s.readReg b)).memRead (s.pc + 1#16) = s.readReg b
  rw [memRead_memWrite canonical, if_pos next.symm]

/-! ### Ports over a step -/

theorem exec_inp (d : Reg) (p : Port) (s : State) : exec (.inp d p) s = .next (s.writeReg d (s.portIn p)).advance := rfl

theorem exec_out (b : Reg) (p : Port) (s : State) : exec (.out b p) s = .next (s.portOut p (s.readReg b)).advance := rfl

/-- Settles O36: IN writes one register, and the environment's turn after it redraws every input port. -/
theorem environmentTakesATurnAfterIn : Obligations.EnvironmentTakesATurnAfterIn := by
  intro s d p fetched
  refine ⟨_, step_of_fetch fetched (exec_inp d p s), ?_, fun q => ?_, rfl⟩
  · exact readReg_writeReg_self s d (s.portIn p)
  · exact portIn_environmentTurn _ q

/-- Settles O35: the environment's turn after an OUT is taken exactly where the port is one register with its input port. -/
theorem inAfterOutFollowsPortAliasing : Obligations.InAfterOutFollowsPortAliasing := by
  intro s b d p fetched
  refine ⟨_, _, step_of_fetch fetched (exec_out b p s), exec_inp d p _, fun separate => ?_, fun aliased => ?_⟩
  · simp [environmentActsAfter, separate, portIn_portOut_of_separate]
  · simp [environmentActsAfter, aliased, portIn_environmentTurn, portIn_portOut_of_aliased]

/-- An instruction that makes an output port show another word is an OUT to that port, and the port shows the register's content. -/
theorem exec_changes_outputPort {i : Instr} {s t : State} {p : Port} (h : exec i s = .next t)
    (changed : t.outputPort p ≠ s.outputPort p) : ∃ b, i = .out b p ∧ t.outputPort p = s.readReg b := by
  obtain ⟨d, v, rfl⟩ | ⟨b, a, n6, -, rfl⟩ | ⟨b, q, rfl, rfl⟩ | ⟨b, n8, -, rfl⟩ | ⟨b, n8, -, rfl⟩ := exec_next_cases h
  · exact absurd rfl changed
  · exact absurd rfl changed
  · rw [outputPort_advance] at changed ⊢
    obtain rfl : p = q := by
      by_contra other
      exact changed (outputPort_portOut_of_ne s _ other)
    exact ⟨b, rfl, outputPort_portOut_self s p _⟩
  · exact absurd rfl changed
  · exact absurd rfl changed

/-- An instruction that changes the trace of outputs is an OUT, and the trace gains its pair. -/
theorem exec_changes_outTrace {i : Instr} {s t : State} (h : exec i s = .next t) (changed : t.outTrace ≠ s.outTrace) :
    ∃ b p, i = .out b p ∧ t.outTrace = s.outTrace ++ [(p, s.readReg b)] := by
  obtain ⟨d, v, rfl⟩ | ⟨b, a, n6, -, rfl⟩ | ⟨b, p, rfl, rfl⟩ | ⟨b, n8, -, rfl⟩ | ⟨b, n8, -, rfl⟩ := exec_next_cases h
  · exact absurd rfl changed
  · exact absurd rfl changed
  · exact ⟨b, p, rfl, rfl⟩
  · exact absurd rfl changed
  · exact absurd rfl changed

/-- The environment's turn does not reach an output port that is apart from its input port. -/
theorem outputPort_environmentTurn_of_separate {s : State} {p : Port} (separate : s.aliasedPort p = false) :
    s.environmentTurn.outputPort p = s.outputPort p := by
  simp [State.outputPort, separate]

/-- No instruction changes which ports are one register. -/
theorem exec_keeps_aliasedPort {i : Instr} {s t : State} (h : exec i s = .next t) (p : Port) : t.aliasedPort p = s.aliasedPort p := by
  rw [State.aliasedPort, exec_keeps_config h, State.aliasedPort]

/-- Settles O43: of the instructions only OUT reaches output ports and trace, and the environment's turn reaches neither. -/
theorem onlyOutChangesOutputPorts : Obligations.OnlyOutChangesOutputPorts := by
  intro s u stepped
  obtain ⟨i, t, decoded, executed, after⟩ := step_next_exec stepped
  refine ⟨fun p separate changed => ?_, fun changed => ?_⟩
  · have shows : u.outputPort p = t.outputPort p := by
      obtain rfl | rfl := after
      · exact outputPort_environmentTurn_of_separate ((exec_keeps_aliasedPort executed p).trans separate)
      · rfl
    rw [shows] at changed ⊢
    obtain ⟨b, rfl, content⟩ := exec_changes_outputPort executed changed
    exact ⟨b, (encode_of_decode decoded (.inr nofun)).symm, content⟩
  · have trace : u.outTrace = t.outTrace := by
      obtain rfl | rfl := after
      · exact environmentTurn_outTrace t
      · rfl
    rw [trace] at changed ⊢
    obtain ⟨b, p, rfl, gained⟩ := exec_changes_outTrace executed changed
    exact ⟨b, p, (encode_of_decode decoded (.inr nofun)).symm, gained⟩

/-- The environment acts after an IN and after an OUT to a port that is one register with its input port, and after nothing else. -/
theorem environmentActsAfter_iff (i : Instr) (s : State) :
    environmentActsAfter i s = true ↔ (∃ d p, i = .inp d p) ∨ ∃ b p, i = .out b p ∧ s.aliasedPort p = true := by
  cases i <;> simp [environmentActsAfter]

/-- No instruction itself changes an input port or the count of turns, but for an OUT to a port that is one register with its input
port. -/
theorem exec_keeps_input {i : Instr} {s t : State} (h : exec i s = .next t)
    (separate : ∀ b p, i = .out b p → s.aliasedPort p = false) : t.input = s.input ∧ t.envTurns = s.envTurns := by
  obtain ⟨d, v, rfl⟩ | ⟨b, a, n6, -, rfl⟩ | ⟨b, p, rfl, rfl⟩ | ⟨b, n8, -, rfl⟩ | ⟨b, n8, -, rfl⟩ := exec_next_cases h
  · exact ⟨rfl, rfl⟩
  · exact ⟨rfl, rfl⟩
  · simp [separate b p rfl]
  · exact ⟨rfl, rfl⟩
  · exact ⟨rfl, rfl⟩

/-- Settles O44: without an IN and without an OUT to an aliased port the environment takes no turn. -/
theorem inputPortsChangeOnlyAtPortInstructions : Obligations.InputPortsChangeOnlyAtPortInstructions := by
  intro s u stepped notIn separate
  obtain ⟨i, decoded, after⟩ := step_next stepped
  have out_separate : ∀ b p, i = .out b p → s.aliasedPort p = false := by
    rintro b p rfl
    exact separate b p (encode_of_decode decoded (.inr nofun)).symm
  obtain ⟨t, executed, ⟨acts, -⟩ | ⟨-, rfl⟩⟩ := afterInstruction_next after
  · obtain ⟨d, p, rfl⟩ | ⟨b, p, rfl, aliased⟩ := (environmentActsAfter_iff i t).mp acts
    · exact absurd (encode_of_decode decoded (.inr nofun)).symm (notIn d p)
    · rw [exec_keeps_aliasedPort executed, out_separate b p rfl] at aliased
      cases aliased
  · exact exec_keeps_input executed out_separate

end Sys2Proof.Machine
end

section
/-! PROOFS. The family of 30_encoding.md: the decoder against the encoder and against the table of R100, and the assembler. -/

namespace Sys2Proof

/-! ### Encode and decode -/

/-- Settles O2: every field of a word the encoder writes reads back as the operand it was written from. -/
theorem decodeInvertsEncode : Obligations.DecodeInvertsEncode := decode_encode

/-- Settles O3: under the default of NOT_BBB_NONZERO the bits bbb of a NOT count as well. -/
theorem everyDecodedWordIsItsEncoding : Obligations.EveryDecodedWordIsItsEncoding :=
  fun _ _ decoded => encode_of_decode decoded (.inl rfl)

/-- Settles O1, by running the decoder on the 22 words. -/
theorem specWordsDecodeToTheirInstructions : Obligations.SpecWordsDecodeToTheirInstructions := by
  unfold Obligations.SpecWordsDecodeToTheirInstructions
  decide

/-! ### What the masks of 30_encoding.md R100 keep of a word -/

/-- The mask F038 shows the opcode and the function of format 3-Reg. -/
theorem mask3Reg_eq_iff (w : Word) (c : BitVec 4) (f : BitVec 3) :
    w &&& 0xF038#16 = word3Reg c 0 0 f 0#3 ↔ w.opcodeField = c ∧ w.functionField = f := by
  have masked : w &&& 0xF038#16 = word3Reg w.opcodeField 0 0 w.functionField 0#3 := by
    conv_lhs => rw [← word3Reg_fields w, word3Reg_mask]
    rfl
  rw [masked]
  constructor
  · intro same
    exact ⟨by simpa using congrArg Word.opcodeField same, by simpa using congrArg Word.functionField same⟩
  · rintro ⟨rfl, rfl⟩
    rfl

/-- The mask F000 shows the opcode. -/
theorem mask2Reg_eq_iff (w : Word) (c : BitVec 4) : w &&& 0xF000#16 = c ++ 0#12 ↔ w.opcodeField = c := by
  have masked : w &&& 0xF000#16 = w.opcodeField ++ 0#12 := by
    conv_lhs => rw [← word2Reg_fields w, word2Reg_mask]
  have high (x : BitVec 4) : Word.opcodeField (x ++ 0#12) = x :=
    (BitVec.extractLsb'_append_eq_of_le (by decide)).trans BitVec.extractLsb'_eq_self
  rw [masked]
  constructor
  · intro same
    rw [← high w.opcodeField, same, high]
  · rintro rfl
    rfl

/-- The mask F100 shows the opcode and the extension bit of format 1-Reg. -/
theorem mask1Reg_eq_iff (w : Word) (c : BitVec 4) (e : BitVec 1) :
    w &&& 0xF100#16 = word1Reg c 0 e 0#8 ↔ w.opcodeField = c ∧ BitVec.ofBool w.extensionBit = e := by
  have masked : w &&& 0xF100#16 = word1Reg w.opcodeField 0 (BitVec.ofBool w.extensionBit) 0#8 := by
    conv_lhs => rw [← word1Reg_fields w, word1Reg_mask]
    rfl
  rw [masked]
  constructor
  · intro same
    refine ⟨by simpa using congrArg Word.opcodeField same, ?_⟩
    have bit := congrArg Word.extensionBit same
    rw [extensionBit_word1Reg, extensionBit_word1Reg] at bit
    apply BitVec.eq_of_getLsbD_eq
    intro k hk
    rwa [Nat.lt_one_iff.mp hk]
  · rintro ⟨rfl, rfl⟩
    rfl

/-- The mask 0007 shows bbb. -/
theorem maskSource_eq_zero_iff (w : Word) : w &&& 0x0007#16 = 0#16 ↔ w.regFieldB = 0#3 := by
  have low : w &&& 0x0007#16 = w.regFieldB.setWidth 16 := by
    apply BitVec.eq_of_getLsbD_eq
    intro k hk
    simp only [Word.regFieldB]
    interval_cases k <;> simp
  rw [low]
  bv_omega

/-! ### The decoder against the table of R100 -/

/-- The word of every instruction carries the fixed bits of its row. -/
theorem fitsItsRow (i : Instr) : Laws.FitsItsRow.Statement i := by
  cases i with
  | and d a b => exact Laws.FitsItsRow.and d a b
  | or d a b => exact Laws.FitsItsRow.or d a b
  | xor d a b => exact Laws.FitsItsRow.xor d a b
  | not d a => exact Laws.FitsItsRow.not d a
  | add d a b => exact Laws.FitsItsRow.add d a b
  | sub d a b => exact Laws.FitsItsRow.sub d a b
  | sha d a b => exact Laws.FitsItsRow.sha d a b
  | shl d a b => exact Laws.FitsItsRow.shl d a b
  | cmplt d a b => exact Laws.FitsItsRow.cmplt d a b
  | cmple d a b => exact Laws.FitsItsRow.cmple d a b
  | cmpeq d a b => exact Laws.FitsItsRow.cmpeq d a b
  | cmpltu d a b => exact Laws.FitsItsRow.cmpltu d a b
  | cmpleu d a b => exact Laws.FitsItsRow.cmpleu d a b
  | addi d a n6 => exact Laws.FitsItsRow.addi d a n6
  | ld d a n6 => exact Laws.FitsItsRow.ld d a n6
  | st b a n6 => exact Laws.FitsItsRow.st b a n6
  | movi d n8 => exact Laws.FitsItsRow.movi d n8
  | movhi d n8 => exact Laws.FitsItsRow.movhi d n8
  | bz b n8 => exact Laws.FitsItsRow.bz b n8
  | bnz b n8 => exact Laws.FitsItsRow.bnz b n8
  | inp d p => exact Laws.FitsItsRow.inp d p
  | out b p => exact Laws.FitsItsRow.out b p

section Rows

variable {w : Word} {c : BitVec 4} {f : BitVec 3} {e : BitVec 1} {m : Mnemonic}

/-- A word that is the word of an instruction of mnemonic `m` decodes to one. -/
theorem decodes_of_eq_encode {i : Instr} (written : w = encode i) (named : i.mnemonic = m) :
    ∃ i, decode .reserved w = .ok i ∧ i.mnemonic = m :=
  ⟨i, written ▸ decode_encode .reserved i, named⟩

/-- A word with the opcode and the function of a 3-Reg instruction `mk` is the word of one. -/
theorem decodes_of_mask3Reg (mk : Reg → Reg → Reg → Instr)
    (form : ∀ d a b, encode (mk d a b) = word3Reg c d a f b.bits ∧ (mk d a b).mnemonic = m)
    (fits : w &&& 0xF038#16 = word3Reg c 0 0 f 0#3) :
    ∃ i, decode .reserved w = .ok i ∧ i.mnemonic = m := by
  obtain ⟨rfl, rfl⟩ := (mask3Reg_eq_iff w c f).mp fits
  refine decodes_of_eq_encode (i := mk (Reg.ofBits w.regFieldD) (Reg.ofBits w.regFieldA) (Reg.ofBits w.regFieldB))
    ?_ (form _ _ _).2
  rw [(form _ _ _).1, Reg.bits_ofBits, word3Reg_fields]

/-- A word with the opcode of a 2-Reg instruction `mk` is the word of one. -/
theorem decodes_of_mask2Reg (mk : Reg → Reg → BitVec 6 → Instr)
    (form : ∀ r a n6, encode (mk r a n6) = word2Reg c r a n6 ∧ (mk r a n6).mnemonic = m)
    (fits : w &&& 0xF000#16 = c ++ 0#12) :
    ∃ i, decode .reserved w = .ok i ∧ i.mnemonic = m := by
  obtain rfl := (mask2Reg_eq_iff w c).mp fits
  refine decodes_of_eq_encode (i := mk (Reg.ofBits w.regFieldD) (Reg.ofBits w.regFieldA) w.n6Field) ?_ (form _ _ _).2
  rw [(form _ _ _).1, word2Reg_fields]

/-- A word with the opcode and the extension bit of a 1-Reg instruction `mk` is the word of one. -/
theorem decodes_of_mask1Reg (mk : Reg → BitVec 8 → Instr)
    (form : ∀ r n8, encode (mk r n8) = word1Reg c r e n8 ∧ (mk r n8).mnemonic = m)
    (fits : w &&& 0xF100#16 = word1Reg c 0 e 0#8) :
    ∃ i, decode .reserved w = .ok i ∧ i.mnemonic = m := by
  obtain ⟨rfl, rfl⟩ := (mask1Reg_eq_iff w c e).mp fits
  refine decodes_of_eq_encode (i := mk (Reg.ofBits w.regFieldD) w.n8Field) ?_ (form _ _).2
  rw [(form _ _).1, word1Reg_fields]

/-- NOT's row fixes bbb too, so its mask is the two masks of the function and of bbb in one. -/
theorem decodes_of_maskNot (fits : w &&& 0xF03F#16 = 0x0018#16) : ∃ i, decode .reserved w = .ok i ∧ i.mnemonic = .not := by
  have function : w &&& 0xF038#16 = word3Reg 0b0000#4 0 0 0b011#3 0#3 := by
    have kept := congrArg (· &&& 0xF038#16) fits
    rwa [BitVec.and_assoc] at kept
  have source : w &&& 0x0007#16 = 0#16 := by
    have kept := congrArg (· &&& 0x0007#16) fits
    rwa [BitVec.and_assoc] at kept
  obtain ⟨opcodeZero, functionNot⟩ := (mask3Reg_eq_iff w _ _).mp function
  refine decodes_of_eq_encode (i := .not (Reg.ofBits w.regFieldD) (Reg.ofBits w.regFieldA)) ?_ rfl
  rw [encode, ← opcodeZero, ← functionNot, ← (maskSource_eq_zero_iff w).mp source, word3Reg_fields]

/-- A word that fits a row of the table decodes to an instruction of the row's mnemonic. -/
theorem decodes_of_fits : ∀ row ∈ opcodeTable, w &&& row.mask = row.pattern →
    ∃ i, decode .reserved w = .ok i ∧ i.mnemonic = row.mnemonic := by
  simp only [opcodeTable, List.forall_mem_cons]
  exact ⟨decodes_of_mask3Reg .and fun _ _ _ => ⟨rfl, rfl⟩,
    decodes_of_mask3Reg .or fun _ _ _ => ⟨rfl, rfl⟩,
    decodes_of_mask3Reg .xor fun _ _ _ => ⟨rfl, rfl⟩,
    decodes_of_maskNot,
    decodes_of_mask3Reg .add fun _ _ _ => ⟨rfl, rfl⟩,
    decodes_of_mask3Reg .sub fun _ _ _ => ⟨rfl, rfl⟩,
    decodes_of_mask3Reg .sha fun _ _ _ => ⟨rfl, rfl⟩,
    decodes_of_mask3Reg .shl fun _ _ _ => ⟨rfl, rfl⟩,
    decodes_of_mask3Reg .cmplt fun _ _ _ => ⟨rfl, rfl⟩,
    decodes_of_mask3Reg .cmple fun _ _ _ => ⟨rfl, rfl⟩,
    decodes_of_mask3Reg .cmpeq fun _ _ _ => ⟨rfl, rfl⟩,
    decodes_of_mask3Reg .cmpltu fun _ _ _ => ⟨rfl, rfl⟩,
    decodes_of_mask3Reg .cmpleu fun _ _ _ => ⟨rfl, rfl⟩,
    decodes_of_mask2Reg .addi fun _ _ _ => ⟨rfl, rfl⟩,
    decodes_of_mask2Reg .ld fun _ _ _ => ⟨rfl, rfl⟩,
    decodes_of_mask2Reg .st fun _ _ _ => ⟨rfl, rfl⟩,
    decodes_of_mask1Reg .movi fun _ _ => ⟨rfl, rfl⟩,
    decodes_of_mask1Reg .movhi fun _ _ => ⟨rfl, rfl⟩,
    decodes_of_mask1Reg .bz fun _ _ => ⟨rfl, rfl⟩,
    decodes_of_mask1Reg .bnz fun _ _ => ⟨rfl, rfl⟩,
    decodes_of_mask1Reg (c := 0b0111#4) (e := 0#1) (fun r n8 => .inp r (Port.ofBits n8)) fun _ _ => ⟨by simp [encode], rfl⟩,
    decodes_of_mask1Reg (c := 0b0111#4) (e := 1#1) (fun r n8 => .out r (Port.ofBits n8)) fun _ _ => ⟨by simp [encode], rfl⟩,
    nofun⟩

end Rows

/-- Settles O4: a word that decodes is its instruction's word, which fits its row; a word that fits a row is the word of an
instruction of the row's mnemonic. -/
theorem decoderAgreesWithTheOpcodeTable : Obligations.DecoderAgreesWithTheOpcodeTable := by
  intro w m
  constructor
  · rintro ⟨i, decoded, rfl⟩
    obtain ⟨row, listed, named, fits⟩ := fitsItsRow i
    rw [encode_of_decode decoded (.inl rfl)] at fits
    exact ⟨row, listed, named, by simpa [TableRow.fits] using fits⟩
  · rintro ⟨row, listed, rfl, fits⟩
    exact decodes_of_fits row listed fits

/-! ### The words the decoder refuses -/

/-- Bit 15 is the highest bit of the opcode. -/
theorem getLsbD_15_eq_opcode_msb (w : Word) : w.getLsbD 15 = w.opcodeField.msb := by
  simp [Word.opcodeField, BitVec.msb_eq_getLsbD_last]

/-- R103: the opcodes 1000 to 1111 are refused by name. -/
theorem decode_of_bit15 (notBbb : NotBbbNonzero) {w : Word} (h : w.getLsbD 15 = true) :
    decode notBbb w = .error (.opcode w.opcodeField) := by
  rw [getLsbD_15_eq_opcode_msb] at h
  unfold decode
  split
  case h_9 => rfl
  all_goals
    next opcode =>
      rw [opcode] at h
      cases h

/-- R104: the functions that no comparison has are refused by name. -/
theorem decode_of_compareFunction (notBbb : NotBbbNonzero) {w : Word} (opcode : w.opcodeField = 0b0001#4)
    (function : w.functionField = 0b010#3 ∨ w.functionField = 0b110#3 ∨ w.functionField = 0b111#3) :
    decode notBbb w = .error (.compareFunction w.functionField) := by
  obtain function | function | function := function <;> simp [decode, opcode, function, decodeCompare]

/-- R105: NOT with bbb not 000 is refused by name, or is NOT where NOT_BBB_NONZERO says ignore. -/
theorem decode_of_notSource {w : Word} (opcode : w.opcodeField = 0b0000#4) (function : w.functionField = 0b011#3)
    (source : w.regFieldB ≠ 0#3) :
    decode .reserved w = .error (.notSource w.regFieldB) ∧
      decode .ignore w = .ok (.not (Reg.ofBits w.regFieldD) (Reg.ofBits w.regFieldA)) := by
  simp [decode, opcode, function, decodeArithLogic, source]

/-- What the decoder refuses under opcode 0000. -/
theorem decodeArithLogic_error {notBbb : NotBbbNonzero} {f bField : BitVec 3} {d a : Reg} {r : Reserved}
    (h : decodeArithLogic notBbb f d a bField = .error r) : f = 0b011#3 ∧ bField ≠ 0#3 := by
  unfold decodeArithLogic at h
  split at h
  case h_4 =>
    split at h
    next => cases h
    next neither => exact ⟨rfl, fun zero => neither (.inl zero)⟩
  all_goals cases h

/-- The three functions that no comparison has. -/
theorem compareFunction_of_unlisted {f : BitVec 3} (lt : f ≠ 0b000#3) (le : f ≠ 0b001#3) (eq : f ≠ 0b011#3) (ltu : f ≠ 0b100#3)
    (leu : f ≠ 0b101#3) : f = 0b010#3 ∨ f = 0b110#3 ∨ f = 0b111#3 := by
  bv_omega

/-- What the decoder refuses under opcode 0001. -/
theorem decodeCompare_error {f : BitVec 3} {d a b : Reg} {r : Reserved} (h : decodeCompare f d a b = .error r) :
    f = 0b010#3 ∨ f = 0b110#3 ∨ f = 0b111#3 := by
  unfold decodeCompare at h
  split at h
  case h_6 lt le eq ltu leu => exact compareFunction_of_unlisted lt le eq ltu leu
  all_goals cases h

/-- Every opcode but 0000 to 0111 has its highest bit set. -/
theorem opcode_msb_of_unlisted {c : BitVec 4} (arith : c ≠ 0b0000#4) (compare : c ≠ 0b0001#4) (addi : c ≠ 0b0010#4)
    (ld : c ≠ 0b0011#4) (st : c ≠ 0b0100#4) (move : c ≠ 0b0101#4) (branch : c ≠ 0b0110#4) (port : c ≠ 0b0111#4) :
    c.msb = true := by
  rw [BitVec.msb_eq_decide, decide_eq_true_iff]
  bv_omega

/-- A word is refused for one of the reasons of R103 to R105. -/
theorem decode_error {notBbb : NotBbbNonzero} {w : Word} {r : Reserved} (h : decode notBbb w = .error r) :
    w.getLsbD 15 = true ∨
    (w.opcodeField = 0b0001#4 ∧ (w.functionField = 0b010#3 ∨ w.functionField = 0b110#3 ∨ w.functionField = 0b111#3)) ∨
    ((w.opcodeField = 0b0000#4 ∧ w.functionField = 0b011#3) ∧ w.regFieldB ≠ 0#3) := by
  unfold decode at h
  split at h
  case h_1 opcode =>
    obtain ⟨function, source⟩ := decodeArithLogic_error h
    exact .inr (.inr ⟨⟨opcode, function⟩, source⟩)
  case h_2 opcode => exact .inr (.inl ⟨opcode, decodeCompare_error h⟩)
  case h_9 arith compare addi ld st move branch port =>
    exact .inl (getLsbD_15_eq_opcode_msb w ▸ opcode_msb_of_unlisted arith compare addi ld st move branch port)
  all_goals cases h

/-- The three words of R104 as opcode and function. -/
theorem compareFunctionUnused_iff (w : Word) :
    (w &&& 0xF038#16 = 0x1010#16 ∨ w &&& 0xF038#16 = 0x1030#16 ∨ w &&& 0xF038#16 = 0x1038#16) ↔
      w.opcodeField = 0b0001#4 ∧ (w.functionField = 0b010#3 ∨ w.functionField = 0b110#3 ∨ w.functionField = 0b111#3) := by
  rw [and_or_left, and_or_left]
  exact or_congr (mask3Reg_eq_iff w 0b0001#4 0b010#3)
    (or_congr (mask3Reg_eq_iff w 0b0001#4 0b110#3) (mask3Reg_eq_iff w 0b0001#4 0b111#3))

/-- The words of R105 as opcode, function and bbb. -/
theorem notSourceNonzero_iff (w : Word) :
    (w &&& 0xF038#16 = 0x0018#16 ∧ w &&& 0x0007#16 ≠ 0#16) ↔
      (w.opcodeField = 0b0000#4 ∧ w.functionField = 0b011#3) ∧ w.regFieldB ≠ 0#3 :=
  and_congr (mask3Reg_eq_iff w 0b0000#4 0b011#3) (maskSource_eq_zero_iff w).not

/-- Settles O5: each unused encoding is decoded by its opcode and function, and `decode_error` leaves no other word refused. -/
theorem unusedEncodingsAreRefusedByName : Obligations.UnusedEncodingsAreRefusedByName := by
  intro notBbb w
  simp only [compareFunctionUnused_iff, notSourceNonzero_iff]
  split_ifs with high compare notSource
  · exact decode_of_bit15 notBbb high
  · obtain ⟨opcode, function⟩ := compare
    exact decode_of_compareFunction notBbb opcode function
  · obtain ⟨⟨opcode, function⟩, source⟩ := notSource
    exact decode_of_notSource opcode function source
  · cases decoded : decode notBbb w with
    | ok i => exact ⟨i, rfl⟩
    | error r =>
      obtain reason | reason | reason := decode_error decoded
      · exact absurd reason high
      · exact absurd reason compare
      · exact absurd reason notSource

end Sys2Proof

namespace Sys2Proof.Machine

/-! ### Constants and labels of the assembler -/

/-! `assemble` on the statements with a constant, form by form (30_encoding.md R109). -/

section Assemble

variable (symbols : SymbolTable) (here : Word) (r q : Reg) (c : AsmConst)

theorem assemble_addi : assemble symbols here ⟨.addi, [.reg r, .reg q, .const c]⟩ = (n6Signed symbols c).map (.addi r q) := rfl
theorem assemble_ld : assemble symbols here ⟨.ld, [.reg r, .mem c q]⟩ = (n6Signed symbols c).map (.ld r q) := rfl
theorem assemble_st : assemble symbols here ⟨.st, [.mem c q, .reg r]⟩ = (n6Signed symbols c).map (.st r q) := rfl
theorem assemble_movi : assemble symbols here ⟨.movi, [.reg r, .const c]⟩ = (n8Signed symbols c).map (.movi r) := rfl
theorem assemble_movhi : assemble symbols here ⟨.movhi, [.reg r, .const c]⟩ = (n8Binary symbols c).map (.movhi r) := rfl
theorem assemble_bz : assemble symbols here ⟨.bz, [.reg r, .const c]⟩ = (labelField here symbols c).map (.bz r) := rfl
theorem assemble_bnz : assemble symbols here ⟨.bnz, [.reg r, .const c]⟩ = (labelField here symbols c).map (.bnz r) := rfl
theorem assemble_inp :
    assemble symbols here ⟨.inp, [.reg r, .const c]⟩ = (n8Binary symbols c).map fun n8 => .inp r (Port.ofBits n8) := rfl
theorem assemble_out :
    assemble symbols here ⟨.out, [.const c, .reg r]⟩ = (n8Binary symbols c).map fun n8 => .out r (Port.ofBits n8) := rfl

end Assemble

/-- A number in its range goes into the field as it is. -/
theorem numberField_of_mem {n : Nat} {low high v : Int} (lower : low ≤ v) (upper : v ≤ high) :
    numberField n low high v = .ok (BitVec.ofInt n v) := if_pos ⟨lower, upper⟩

/-- An instruction with a number in a field: made where the number is in range, refused where it is not. -/
theorem map_numberField {n : Nat} {α : Type} (mk : BitVec n → α) (low high v : Int) :
    (numberField n low high v).map mk =
      if low ≤ v ∧ v ≤ high then .ok (mk (BitVec.ofInt n v)) else .error (.outOfRange v) := by
  unfold numberField
  split_ifs <;> rfl

/-- Settles O55: a decimal constant is its number, checked by `numberField`; a hexadecimal one is cut by `constField`. -/
theorem constantsAreAcceptedInTheirRanges : Obligations.ConstantsAreAcceptedInTheirRanges := by
  intro symbols here r q v bits
  exact ⟨map_numberField (Instr.addi r q) (-32) 31 v, map_numberField (Instr.ld r q) (-32) 31 v,
    map_numberField (Instr.st r q) (-32) 31 v, map_numberField (Instr.movi r) (-128) 127 v, map_numberField (Instr.movhi r) 0 255 v,
    map_numberField (fun n8 => Instr.inp r (Port.ofBits n8)) 0 255 v,
    map_numberField (fun n8 => Instr.out r (Port.ofBits n8)) 0 255 v,
    rfl, rfl, rfl, rfl, rfl, rfl, rfl⟩

/-- A field read as a two's complement number is that number's field. -/
theorem numberField_toInt {n : Nat} {low high : Int} (x : BitVec n) (lower : low ≤ x.toInt) (upper : x.toInt ≤ high) :
    numberField n low high x.toInt = .ok x := by
  rw [numberField_of_mem lower upper, BitVec.ofInt_toInt]

/-- A field read as a binary number is that number's field. -/
theorem numberField_toNat {n : Nat} {high : Int} (x : BitVec n) (upper : (x.toNat : Int) ≤ high) :
    numberField n 0 high x.toNat = .ok x := by
  rw [numberField_of_mem (Int.natCast_nonneg _) upper, BitVec.ofInt_natCast, BitVec.ofNat_toNat, BitVec.setWidth_eq]

/-- Every N6 is the field of its decimal constant in ADDI, LD and ST. -/
theorem n6Signed_decimal_toInt (symbols : SymbolTable) (n6 : BitVec 6) : n6Signed symbols (decimal n6.toInt) = .ok n6 :=
  numberField_toInt n6 n6.le_toInt (Int.le_of_lt_add_one n6.toInt_lt)

/-- Every N8 is the field of its decimal constant in MOVI. -/
theorem n8Signed_decimal_toInt (symbols : SymbolTable) (n8 : BitVec 8) : n8Signed symbols (decimal n8.toInt) = .ok n8 :=
  numberField_toInt n8 n8.le_toInt (Int.le_of_lt_add_one n8.toInt_lt)

/-- Every N8 is the field of its decimal constant in MOVHI, IN and OUT. -/
theorem n8Binary_decimal_toNat (symbols : SymbolTable) (n8 : BitVec 8) : n8Binary symbols (decimal n8.toNat) = .ok n8 :=
  numberField_toNat n8 (by omega)

/-- A branch operand whose value is an address is the distance to it from the branch (30_encoding.md R114). -/
theorem labelField_of_value {symbols : SymbolTable} {e : AsmExpr} {label : Word} (here : Word)
    (value : e.value symbols = .ok (label.toNat : Int)) :
    labelField here symbols (.expr e) = numberField 8 (-128) 127 (label - here).toInt := by
  simp only [labelField, value, numberField_toNat (high := 65535) label (by omega)]

/-- The target of a branch, written as its address, gives the branch's N8 back. -/
theorem labelField_decimal_target (symbols : SymbolTable) (here : Word) (n8 : BitVec 8) :
    labelField here symbols (decimal (here + sext8 n8).toNat) = .ok n8 := by
  have distance : (here + sext8 n8 - here).toInt = n8.toInt := by
    rw [BitVec.add_comm, BitVec.add_sub_cancel, sext8, BitVec.toInt_signExtend_of_le (by decide)]
  rw [decimal, labelField_of_value here rfl, distance]
  exact numberField_toInt n8 n8.le_toInt (Int.le_of_lt_add_one n8.toInt_lt)

/-- A port's number is the one its N8 names. -/
theorem n8Binary_decimal_port (symbols : SymbolTable) (p : Port) : n8Binary symbols (decimal p.val) = .ok p.bits := by
  have number : p.bits.toNat = p.val := Nat.mod_eq_of_lt p.isLt
  rw [← number, n8Binary_decimal_toNat]

/-- Settles O54: the operands of R109 stand in the order `assemble` reads, and each constant is the field it was read from. -/
theorem everyInstructionHasItsStatement : Obligations.EveryInstructionHasItsStatement := by
  intro symbols here i
  cases i with
  | addi => rw [statementOf, assemble_addi, n6Signed_decimal_toInt, Except.map]
  | ld => rw [statementOf, assemble_ld, n6Signed_decimal_toInt, Except.map]
  | st => rw [statementOf, assemble_st, n6Signed_decimal_toInt, Except.map]
  | movi => rw [statementOf, assemble_movi, n8Signed_decimal_toInt, Except.map]
  | movhi => rw [statementOf, assemble_movhi, n8Binary_decimal_toNat, Except.map]
  | bz => rw [statementOf, assemble_bz, labelField_decimal_target, Except.map]
  | bnz => rw [statementOf, assemble_bnz, labelField_decimal_target, Except.map]
  | inp => rw [statementOf, assemble_inp, n8Binary_decimal_port, Except.map, Port.ofBits_bits]
  | out => rw [statementOf, assemble_out, n8Binary_decimal_port, Except.map, Port.ofBits_bits]
  | _ => rfl

/-- A branch whose N8 is the distance to a label has the label as its target. -/
theorem branchTarget_ofInt {s : State} {label : Word} (lower : -128 ≤ (label - s.pc).toInt)
    (upper : (label - s.pc).toInt ≤ 127) : branchTarget s (BitVec.ofInt 8 (label - s.pc).toInt) = label := by
  have distance : sext8 (BitVec.ofInt 8 (label - s.pc).toInt) = label - s.pc := by
    apply BitVec.eq_of_toInt_eq
    rw [sext8, BitVec.toInt_signExtend_of_le (by decide), BitVec.toInt_ofInt_eq_self (by decide) lower (Int.lt_add_one_of_le upper)]
  rw [branchTarget, distance, BitVec.add_comm, BitVec.sub_add_cancel]

/-- BZ on a register that holds 0 goes to its target. -/
theorem exec_bz_of_zero {b : Reg} {s : State} (n8 : BitVec 8) (zero : s.readReg b = 0x0000#16) :
    exec (.bz b n8) s = .next (s.setPc (branchTarget s n8)) := by
  rw [exec, execBz, (booleanOf_eq_false_iff _).mpr zero, Bool.not_false, branchTo_taken]

/-- BNZ on a register that does not hold 0 goes to its target. -/
theorem exec_bnz_of_nonzero {b : Reg} {s : State} (n8 : BitVec 8) (nonzero : s.readReg b ≠ 0x0000#16) :
    exec (.bnz b n8) s = .next (s.setPc (branchTarget s n8)) := by
  rw [exec, execBnz, (booleanOf_eq_true_iff _).mpr nonzero, branchTo_taken]

/-- Settles O56: the N8 of a branch to a label is the distance to it, checked by `numberField`, and in reach the distance leads from
the branch to the label. -/
theorem branchToALabelGoesToIt : Obligations.BranchToALabelGoesToIt := by
  intro symbols name label b s defined
  have value : (AsmExpr.sym name).value symbols = .ok (label.toNat : Int) := by rw [AsmExpr.value, defined]
  have field := labelField_of_value s.pc value
  split_ifs with reach
  · obtain ⟨lower, upper⟩ := reach
    rw [numberField_of_mem lower upper] at field
    have target := branchTarget_ofInt lower upper
    refine ⟨_, by rw [assemble_bz, field, Except.map], by rw [assemble_bnz, field, Except.map], fun zero => ?_,
      fun nonzero => ?_⟩
    · rw [exec_bz_of_zero _ zero, target, State.setPc]
    · rw [exec_bnz_of_nonzero _ nonzero, target, State.setPc]
  · rw [numberField, if_neg reach] at field
    exact ⟨by rw [assemble_bz, field, Except.map], by rw [assemble_bnz, field, Except.map]⟩

end Sys2Proof.Machine
end

section
/-! PROOFS. The family of 40_arith_logic.md: the eight instructions of opcode 0000 and the amount of the shifts. -/

namespace Sys2Proof.Machine

/-! ### The assembler form, and the next state of each instruction -/

/-- A statement that assembles to an instruction everywhere is a form of it, with the word the encoder writes. -/
theorem isForm_encode {mnemonic : Mnemonic} {operands : List Operand} {i : Instr}
    (assembled : ∀ symbols here, assemble symbols here ⟨mnemonic, operands⟩ = .ok i) : IsForm mnemonic operands (encode i) i :=
  ⟨assembled, rfl, fun notBbb => decode_encode notBbb i⟩

section ExecArithLogic

variable (d a b : Reg) (s : State)

theorem exec_and : exec (.and d a b) s =
    .next { s with regs := s.regs.set d (s.readReg a &&& s.readReg b), pc := s.pc + 1#16 } := writeAndAdvance_eq d _ s
theorem exec_or : exec (.or d a b) s =
    .next { s with regs := s.regs.set d (s.readReg a ||| s.readReg b), pc := s.pc + 1#16 } := writeAndAdvance_eq d _ s
theorem exec_xor : exec (.xor d a b) s =
    .next { s with regs := s.regs.set d (s.readReg a ^^^ s.readReg b), pc := s.pc + 1#16 } := writeAndAdvance_eq d _ s
theorem exec_not : exec (.not d a) s =
    .next { s with regs := s.regs.set d (~~~ s.readReg a), pc := s.pc + 1#16 } := writeAndAdvance_eq d _ s
theorem exec_add : exec (.add d a b) s =
    .next { s with regs := s.regs.set d (s.readReg a + s.readReg b), pc := s.pc + 1#16 } := writeAndAdvance_eq d _ s
theorem exec_sub : exec (.sub d a b) s =
    .next { s with regs := s.regs.set d (s.readReg a - s.readReg b), pc := s.pc + 1#16 } := writeAndAdvance_eq d _ s
theorem exec_sha : exec (.sha d a b) s =
    .next { s with
      regs := s.regs.set d (shiftArithmetic (s.readReg a) (shiftAmount (s.readReg b))), pc := s.pc + 1#16 } :=
  writeAndAdvance_eq d _ s
theorem exec_shl : exec (.shl d a b) s =
    .next { s with
      regs := s.regs.set d (shiftLogic (s.readReg a) (shiftAmount (s.readReg b))), pc := s.pc + 1#16 } :=
  writeAndAdvance_eq d _ s

end ExecArithLogic

/-! ### The shifts by a known amount -/

section Shifts

variable (x : Word) (k : Nat)

/-- An amount that is not negative shifts to the left. -/
theorem shiftArithmetic_natCast : shiftArithmetic x k = x <<< k := by
  rw [shiftArithmetic, if_pos (Int.natCast_nonneg k), Int.toNat_natCast]

/-- A negative amount shifts to the right. -/
theorem shiftArithmetic_neg {n : Nat} (pos : 0 < n) : shiftArithmetic x (-n) = x.sshiftRight n := by
  rw [shiftArithmetic, if_neg (by omega), Int.neg_neg, Int.toNat_natCast]

/-- An amount that is not negative shifts to the left. -/
theorem shiftLogic_natCast : shiftLogic x k = x <<< k := by
  rw [shiftLogic, if_pos (Int.natCast_nonneg k), Int.toNat_natCast]

/-- A negative amount shifts to the right. -/
theorem shiftLogic_neg {n : Nat} (pos : 0 < n) : shiftLogic x (-n) = x >>> n := by
  rw [shiftLogic, if_neg (by omega), Int.neg_neg, Int.toNat_natCast]

/-- Bit by bit, a left shift: zeros enter at the right. -/
theorem getLsbD_shiftLeft_of_lt {i : Nat} (lt : i < 16) : (x <<< k).getLsbD i = (decide (k ≤ i) && x.getLsbD (i - k)) := by
  rw [BitVec.getLsbD_shiftLeft, decide_eq_true lt, Bool.true_and, ← decide_not]
  simp only [Nat.not_lt]

/-- As arithmetic, a left shift: the product with 2^k, of which the low 16 bits remain. -/
theorem shiftLeft_eq_ofInt : x <<< k = BitVec.ofInt 16 (x.toInt * 2 ^ k) := by
  have power : BitVec.ofInt 16 (2 ^ k) = BitVec.twoPow 16 k := by
    apply BitVec.eq_of_toNat_eq
    rw [BitVec.toNat_twoPow, ← BitVec.toNat_ofNat, ← BitVec.ofInt_natCast, Nat.cast_pow, Nat.cast_ofNat]
  rw [BitVec.ofInt_mul, BitVec.ofInt_toInt, power, BitVec.shiftLeft_eq_mul_twoPow]

/-- Bit by bit, an arithmetic right shift: the sign bit enters at the left. -/
theorem getLsbD_sshiftRight_of_lt {i : Nat} (lt : i < 16) :
    (x.sshiftRight k).getLsbD i = if i + k < 16 then x.getLsbD (i + k) else x.getLsbD 15 := by
  rw [BitVec.getLsbD_sshiftRight, decide_eq_false (Nat.not_le_of_lt lt), Bool.not_false, Bool.true_and, Nat.add_comm k,
    BitVec.msb_eq_getLsbD_last]

/-- Bit by bit, a logic right shift: zeros enter at the left. -/
theorem getLsbD_ushiftRight_eq (i : Nat) : (x >>> k).getLsbD i = (decide (i + k < 16) && x.getLsbD (i + k)) := by
  rw [BitVec.getLsbD_ushiftRight, Nat.add_comm k]
  by_cases inside : i + k < 16
  · simp [inside]
  · simp [inside, BitVec.getLsbD_of_ge x (i + k) (Nat.le_of_not_lt inside)]

end Shifts

/-- To the left, SHA and SHL are one shift, so they end in one state (40_arith_logic.md R138). -/
theorem exec_sha_eq_exec_shl {b : Reg} {s : State} {k : Nat} (d a : Reg) (amount : shiftAmount (s.readReg b) = k) :
    exec (.sha d a b) s = exec (.shl d a b) s := by
  rw [exec_sha, exec_shl, amount, shiftArithmetic_natCast, shiftLogic_natCast]

/-- Settles O13: the two clauses are the left and the right branch of `shiftArithmetic`. -/
theorem shaShiftsArithmetically : Obligations.ShaShiftsArithmetically := by
  intro d a b s
  refine ⟨isForm_encode fun _ _ => rfl, _, fun k amount => ?_, fun n pos amount => ?_, exec_sha d a b s⟩
  · rw [shiftAmount, amount, shiftArithmetic_natCast]
    exact ⟨fun _ => getLsbD_shiftLeft_of_lt _ k, shiftLeft_eq_ofInt _ k⟩
  · rw [shiftAmount, amount, shiftArithmetic_neg _ pos]
    refine ⟨fun _ => getLsbD_sshiftRight_of_lt _ n, ?_⟩
    rw [BitVec.toInt_sshiftRight, Int.shiftRight_eq_div_pow, Nat.cast_pow, Nat.cast_ofNat]

/-- Settles O14: the two clauses are the left and the right branch of `shiftLogic`. -/
theorem shlShiftsLogically : Obligations.ShlShiftsLogically := by
  intro d a b s
  refine ⟨isForm_encode fun _ _ => rfl, _, fun k amount => ?_, fun n pos amount => ?_, exec_shl d a b s⟩
  · have same := exec_sha_eq_exec_shl d a amount
    rw [shiftAmount, amount, shiftLogic_natCast]
    refine ⟨fun _ => getLsbD_shiftLeft_of_lt _ k, ?_, same⟩
    rw [BitVec.toNat_shiftLeft, Nat.shiftLeft_eq]
  · rw [shiftAmount, amount, shiftLogic_neg _ pos]
    refine ⟨fun i _ => getLsbD_ushiftRight_eq _ n i, ?_⟩
    rw [BitVec.toNat_ushiftRight, Nat.shiftRight_eq_div_pow]

/-! ### The amount of the shifts -/

/-- Words with the same low 5 bits have the same amount (40_arith_logic.md R139). -/
theorem shiftAmount_congr {y z : Word} (same : ∀ i < 5, z.getLsbD i = y.getLsbD i) : shiftAmount z = shiftAmount y := by
  have low : z.extractLsb' 0 5 = y.extractLsb' 0 5 := by
    apply BitVec.eq_of_getLsbD_eq
    intro i lt
    simp [same i lt]
  rw [shiftAmount, low, shiftAmount]

/-- Bit 4 is the sign of the amount, of weight -16 (40_arith_logic.md R139). -/
theorem shiftAmount_eq (y : Word) : shiftAmount y = (y.toNat % 16 : Nat) - (if y.getLsbD 4 then 16 else 0) := by
  have sign : y.getLsbD 4 = decide (y.toNat / 16 % 2 = 1) := Nat.testBit_eq_decide_div_mod_eq
  have field : (y.extractLsb' 0 5).toNat = y.toNat % 32 := by simp
  rw [shiftAmount, BitVec.toInt_eq_toNat_cond, field, sign]
  simp only [decide_eq_true_eq]
  split_ifs <;> omega

/-- Settles O12: the bounds are those of a two's complement number of 5 bits. -/
theorem shiftAmountIsTheLowFiveBitsSigned : Obligations.ShiftAmountIsTheLowFiveBitsSigned := fun y =>
  ⟨shiftAmount_eq y, (y.extractLsb' 0 5).le_toInt, Int.le_of_lt_add_one (y.extractLsb' 0 5).toInt_lt, fun _ => shiftAmount_congr⟩

/-! ### The bitwise operations -/

/-- Settles O6: a bit of a conjunction is the conjunction of the bits. -/
theorem andWritesTheBitwiseAnd : Obligations.AndWritesTheBitwiseAnd := fun d a b s =>
  ⟨isForm_encode fun _ _ => rfl, _, fun _ _ => BitVec.getLsbD_and, exec_and d a b s⟩

/-- Settles O7: a bit of a disjunction is the disjunction of the bits. -/
theorem orWritesTheBitwiseOr : Obligations.OrWritesTheBitwiseOr := fun d a b s =>
  ⟨isForm_encode fun _ _ => rfl, _, fun _ _ => BitVec.getLsbD_or, exec_or d a b s⟩

/-- Settles O8: a bit of an exclusive or is the exclusive or of the bits. -/
theorem xorWritesTheBitwiseExclusiveOr : Obligations.XorWritesTheBitwiseExclusiveOr := fun d a b s =>
  ⟨isForm_encode fun _ _ => rfl, _, fun _ _ => BitVec.getLsbD_xor, exec_xor d a b s⟩

/-- A word with the opcode and the function of NOT and bbb not 000 is refused by default (30_encoding.md R105). -/
theorem decode_word3Reg_notSource (d a : Reg) {b : BitVec 3} (nonzero : b ≠ 0b000#3) :
    decode .reserved (word3Reg 0b0000#4 d a 0b011#3 b) = .error (.notSource b) := by
  obtain ⟨refused, -⟩ := decode_of_notSource (opcodeField_word3Reg 0b0000#4 d a 0b011#3 b) (functionField_word3Reg _ d a _ b)
    (by rwa [regFieldB_word3Reg])
  rwa [regFieldB_word3Reg] at refused

/-- In two's complement, the complement is the negative less one. -/
theorem toInt_not_eq_neg_sub_one (x : Word) : (~~~x).toInt = -x.toInt - 1 := by
  rw [BitVec.toInt_eq_toNat_cond, BitVec.toInt_eq_toNat_cond, BitVec.toNat_not]
  have bound := x.isLt
  split_ifs <;> omega

/-- Settles O9: the complement bit by bit and as a number, and the decoder on the words beside NOT. -/
theorem notWritesTheComplement : Obligations.NotWritesTheComplement := by
  intro d a s
  refine ⟨isForm_encode fun _ _ => rfl, fun b => decode_word3Reg_notSource d a, _, fun i lt => ?_, BitVec.toNat_not,
    toInt_not_eq_neg_sub_one _, exec_not d a s⟩
  rw [BitVec.getLsbD_not, decide_eq_true lt, Bool.true_and]

/-! ### Sum and difference -/

/-- Settles O10: the sum of two words is that of their natural values, modulo 2^16. -/
theorem addWritesTheSumModulo65536 : Obligations.AddWritesTheSumModulo65536 := fun d a b s =>
  ⟨isForm_encode fun _ _ => rfl, _, BitVec.toNat_add _ _, exec_add d a b s⟩

/-- The difference of two words is that of their natural values, modulo 2^16 also where it is negative. -/
theorem toNat_sub_eq_emod (x y : Word) : ((x - y).toNat : Int) = (x.toNat - y.toNat : Int) % 65536 := by
  rw [BitVec.toNat_sub]
  have bound := y.isLt
  omega

/-- Settles O11, from the difference as an integer modulo 2^16. -/
theorem subWritesTheDifferenceModulo65536 : Obligations.SubWritesTheDifferenceModulo65536 := fun d a b s =>
  ⟨isForm_encode fun _ _ => rfl, _, toNat_sub_eq_emod _ _, exec_sub d a b s⟩

end Sys2Proof.Machine
end

section
/-! PROOFS. The family of 41_addi.md: ADDI. -/

namespace Sys2Proof.Machine

theorem exec_addi (d a : Reg) (n6 : BitVec 6) (s : State) : exec (.addi d a n6) s =
    .next { s with regs := s.regs.set d (s.readReg a + sext6 n6), pc := s.pc + 1#16 } := writeAndAdvance_eq d _ s

/-- The sign extension of N6 is the word of its signed value (30_encoding.md R97). -/
theorem sext6_eq_ofInt (n6 : BitVec 6) : sext6 n6 = BitVec.ofInt 16 n6.toInt := rfl

/-- The sum of a word with a signed constant is that of the numbers, modulo 2^16 also where it is negative. -/
theorem toNat_add_sext6 (x : Word) (n6 : BitVec 6) : ((x + sext6 n6).toNat : Int) = (x.toNat + n6.toInt) % 65536 := by
  have constant : ((sext6 n6).toNat : Int) = n6.toInt % 65536 := by
    rw [sext6_eq_ofInt, BitVec.toNat_ofInt]
    exact Int.toNat_of_nonneg (Int.emod_nonneg _ (by decide))
  calc ((x + sext6 n6).toNat : Int)
      = (x.toNat + (sext6 n6).toNat : Int) % 65536 := by rw [BitVec.toNat_add]; rfl
    _ = (x.toNat + n6.toInt) % 65536 := by rw [constant, Int.add_emod_emod]

/-- Settles O15: the form is the statement of O54, and the bounds are those of a two's complement number of 6 bits. -/
theorem addiWritesTheSumWithN6 : Obligations.AddiWritesTheSumWithN6 := fun d a n6 s =>
  ⟨isForm_encode fun symbols here => everyInstructionHasItsStatement symbols here (.addi d a n6),
    ⟨n6.le_toInt, Int.le_of_lt_add_one n6.toInt_lt⟩, _, toNat_add_sext6 _ n6, exec_addi d a n6 s⟩

end Sys2Proof.Machine
end

section
/-! PROOFS. The family of 42_compare.md: the five comparisons. -/

namespace Sys2Proof.Machine

/-- The word a comparison writes says whether the condition holds (42_compare.md R155). -/
theorem truthWord_decide (p : Prop) [Decidable p] : truthWord (decide p) = if p then 0x0001#16 else 0x0000#16 := by
  by_cases holds : p
  · rw [decide_eq_true holds, if_pos holds]; rfl
  · rw [decide_eq_false holds, if_neg holds]; rfl

/-- What the five comparisons share: the end of an instruction that writes the truth of a condition on the old registers. -/
theorem writeAndAdvance_truthWord (d : Reg) (p : Prop) [Decidable p] (s : State) : writeAndAdvance d (truthWord (decide p)) s =
    .next { s with regs := s.regs.set d (if p then 0x0001#16 else 0x0000#16), pc := s.pc + 1#16 } := by
  rw [truthWord_decide, writeAndAdvance_eq]

/-- Settles O16: the condition is the order of the signed values. -/
theorem cmpltWritesSignedLess : Obligations.CmpltWritesSignedLess := fun _ a b s =>
  ⟨isForm_encode fun _ _ => rfl, writeAndAdvance_truthWord _ ((s.readReg a).toInt < (s.readReg b).toInt) s⟩

/-- Settles O17: the condition is the order of the signed values, equality included. -/
theorem cmpleWritesSignedLessOrEqual : Obligations.CmpleWritesSignedLessOrEqual := fun _ a b s =>
  ⟨isForm_encode fun _ _ => rfl, writeAndAdvance_truthWord _ ((s.readReg a).toInt ≤ (s.readReg b).toInt) s⟩

/-- Settles O18: the condition is the equality of the words. -/
theorem cmpeqWritesEquality : Obligations.CmpeqWritesEquality := fun _ a b s =>
  ⟨isForm_encode fun _ _ => rfl, writeAndAdvance_truthWord _ (s.readReg a = s.readReg b) s⟩

/-- Settles O19: the condition is the order of the natural values. -/
theorem cmpltuWritesUnsignedLess : Obligations.CmpltuWritesUnsignedLess := fun _ a b s =>
  ⟨isForm_encode fun _ _ => rfl, writeAndAdvance_truthWord _ ((s.readReg a).toNat < (s.readReg b).toNat) s⟩

/-- Settles O20: the condition is the order of the natural values, equality included. -/
theorem cmpleuWritesUnsignedLessOrEqual : Obligations.CmpleuWritesUnsignedLessOrEqual := fun _ a b s =>
  ⟨isForm_encode fun _ _ => rfl, writeAndAdvance_truthWord _ ((s.readReg a).toNat ≤ (s.readReg b).toNat) s⟩

end Sys2Proof.Machine
end

section
/-! PROOFS. The family of 43_load_store.md: the effective address, LD and ST. -/

namespace Sys2Proof.Machine

/-- Settles O21: LD and ST leave every register but their destination, and ST has none. -/
theorem effectiveAddressIsBasePlusN6Modulo65536 : Obligations.EffectiveAddressIsBasePlusN6Modulo65536 := by
  intro s a n6
  refine ⟨toNat_add_sext6 _ n6, n6.le_toInt, Int.le_of_lt_add_one n6.toInt_lt, fun d t other executed => ?_,
    fun b t executed => ?_⟩
  · have notDest : (Instr.ld d a n6).dest? ≠ some a := fun same => other (Option.some.inj same)
    exact exec_readReg_of_not_dest notDest executed
  · have notDest : (Instr.st b a n6).dest? ≠ some a := nofun
    exact exec_readReg_of_not_dest notDest executed

/-- Settles O22: the form is the statement of O54, and the address is formed from the registers before the write. -/
theorem ldLoadsTheWordAtTheEffectiveAddress : Obligations.LdLoadsTheWordAtTheEffectiveAddress := fun d a n6 s =>
  ⟨isForm_encode fun symbols here => everyInstructionHasItsStatement symbols here (.ld d a n6), writeAndAdvance_eq d _ s⟩

/-- Settles O23: the form is the statement of O54, and the reads after ST are those after a write to memory. -/
theorem stStoresTheRegisterAtTheEffectiveAddress : Obligations.StStoresTheRegisterAtTheEffectiveAddress := by
  intro b a n6 s
  refine ⟨isForm_encode fun symbols here => everyInstructionHasItsStatement symbols here (.st b a n6),
    _, exec_st b a n6 s, rfl, fun canonical => ?_, fun x elsewhere => ?_⟩
  · exact read_write_self canonical _ _
  · exact read_write_of_ne s.mem _ elsewhere

end Sys2Proof.Machine
end

section
/-! PROOFS. The family of 44_branch.md: BZ and BNZ, the reach of a branch, and the pair that always branches. -/

namespace Sys2Proof.Machine

/-! ### A branch that is not taken -/

/-- BZ on a register that does not hold 0 goes on to the next address. -/
theorem exec_bz_of_nonzero {b : Reg} {s : State} (n8 : BitVec 8) (nonzero : s.readReg b ≠ 0x0000#16) :
    exec (.bz b n8) s = .next s.advance := by
  rw [exec, execBz, (booleanOf_eq_true_iff _).mpr nonzero, Bool.not_true, branchTo_not_taken]

/-- BNZ on a register that holds 0 goes on to the next address. -/
theorem exec_bnz_of_zero {b : Reg} {s : State} (n8 : BitVec 8) (zero : s.readReg b = 0x0000#16) :
    exec (.bnz b n8) s = .next s.advance := by
  rw [exec, execBnz, (booleanOf_eq_false_iff _).mpr zero, branchTo_not_taken]

/-! ### The pair BZ, BNZ -/

/-- A step whose instruction the environment does not act after is the instruction. -/
theorem step_of_fetch_of_no_turn {s t : State} {i : Instr} (fetched : s.fetch = encode i) (executed : exec i s = .next t)
    (noTurn : environmentActsAfter i t = false) : step s = .next t := by
  rw [step_of_fetch fetched executed, noTurn, if_neg Bool.false_ne_true]

/-- Settles O29: on a register that holds 0 the BZ is taken; on any other the step only advances the PC, so the register still does
not hold 0 at the BNZ, which is taken. -/
theorem bzBnzPairAlwaysReachesItsLabel : Obligations.BzBnzPairAlwaysReachesItsLabel := by
  intro s b n m bzHere bnzNext sameTarget
  refine ⟨s.setPc (branchTarget s n), rfl, ?_⟩
  by_cases zero : s.readReg b = 0x0000#16
  · exact .inl (step_of_fetch_of_no_turn bzHere (exec_bz_of_zero n zero) rfl)
  · have bnzTaken := exec_bnz_of_nonzero (s := s.advance) m zero
    have target : branchTarget s.advance m = branchTarget s n := sameTarget.symm
    rw [target] at bnzTaken
    exact .inr ⟨s.advance, step_of_fetch_of_no_turn bzHere (exec_bz_of_nonzero n zero) rfl,
      step_of_fetch_of_no_turn bnzNext bnzTaken rfl⟩

/-! ### Each branch on its own -/

/-- Settles O26: the form is the statement of O54, and the next state is that of the branch taken or not taken. -/
theorem bzBranchesOnZero : Obligations.BzBranchesOnZero := by
  intro b n8 s
  refine ⟨fun symbols here => everyInstructionHasItsStatement symbols here (.bz b n8), rfl,
    fun notBbb => decode_encode notBbb _, ?_⟩
  split_ifs with zero
  · exact exec_bz_of_zero n8 zero
  · exact exec_bz_of_nonzero n8 zero

/-- Settles O27: the form is the statement of O54, and the next state is that of the branch taken or not taken. -/
theorem bnzBranchesOnNotZero : Obligations.BnzBranchesOnNotZero := by
  intro b n8 s
  refine ⟨fun symbols here => everyInstructionHasItsStatement symbols here (.bnz b n8), rfl,
    fun notBbb => decode_encode notBbb _, ?_⟩
  split_ifs with nonzero
  · exact exec_bnz_of_nonzero n8 nonzero
  · exact exec_bnz_of_zero n8 (not_not.mp nonzero)

/-! ### The reach of a branch -/

/-- The sum of two words is that of their values, modulo 2^16, also where the second is read as a signed number. -/
theorem toNat_add_eq_emod_toInt (x y : Word) : ((x + y).toNat : Int) = (x.toNat + y.toInt) % 65536 := by
  rw [BitVec.toNat_add, BitVec.toInt_eq_toNat_cond]
  split_ifs <;> omega

/-- The target of a branch is N8 words from it, modulo 2^16 (44_branch.md R180). -/
theorem toNat_branchTarget (s : State) (n8 : BitVec 8) :
    ((branchTarget s n8).toNat : Int) = (s.pc.toNat + n8.toInt) % 65536 := by
  rw [branchTarget, toNat_add_eq_emod_toInt, sext8, BitVec.toInt_signExtend_of_le (by decide)]

/-- Settles O28: a branch taken leaves its target in the PC, and the bounds are those of a two's complement number of 8 bits. -/
theorem takenBranchGoesN8WordsFromItself : Obligations.TakenBranchGoesN8WordsFromItself := by
  intro s t b n8 taken
  have ends : t = s.setPc (branchTarget s n8) := by
    obtain ⟨zero, executed⟩ | ⟨nonzero, executed⟩ := taken
    · rw [exec_bz_of_zero n8 zero] at executed
      exact (Host.Outcome.next.inj executed).symm
    · rw [exec_bnz_of_nonzero n8 nonzero] at executed
      exact (Host.Outcome.next.inj executed).symm
  subst ends
  exact ⟨toNat_branchTarget s n8, n8.le_toInt, Int.le_of_lt_add_one n8.toInt_lt⟩

end Sys2Proof.Machine
end

section
/-! PROOFS. The family of 45_move_immediate.md: MOVI and MOVHI. -/

namespace Sys2Proof.Machine

/-! ### The two words that are written -/

/-- The sign extension of N8 has the value of N8 (45_move_immediate.md R191). -/
theorem toInt_sext8 (n8 : BitVec 8) : (sext8 n8).toInt = n8.toInt := BitVec.toInt_signExtend_of_le (by decide)

/-- The sign extension of N8 has N8 as its low byte (45_move_immediate.md R191). -/
theorem lowByte_sext8 (n8 : BitVec 8) : (sext8 n8).extractLsb' 0 8 = n8 := by
  apply BitVec.eq_of_getLsbD_eq
  intro i lt
  have inWord : i < 16 := by omega
  simp [sext8, BitVec.getElem_signExtend, lt, inWord]

/-- The high byte is the one that was put there. -/
theorem highByte_withHighByte (n8 : BitVec 8) (v : Word) : (withHighByte n8 v).extractLsb' 8 8 = n8 :=
  BitVec.extractLsb'_append_eq_left

/-- The low byte is the old one. -/
theorem lowByte_withHighByte (n8 : BitVec 8) (v : Word) : (withHighByte n8 v).extractLsb' 0 8 = v.extractLsb' 0 8 :=
  BitVec.extractLsb'_append_eq_right

/-- A word is its high byte put onto the sign extension of its low byte (45_move_immediate.md R193). -/
theorem withHighByte_sext8_bytes (c : Word) : withHighByte (c.extractLsb' 8 8) (sext8 (c.extractLsb' 0 8)) = c := by
  rw [withHighByte, lowByte_sext8]
  exact BitVec.extractLsb'_append_extractLsb'

/-! ### The next state of each instruction -/

theorem exec_movi (d : Reg) (n8 : BitVec 8) (s : State) : exec (.movi d n8) s =
    .next { s with regs := s.regs.set d (sext8 n8), pc := s.pc + 1#16 } := writeAndAdvance_eq d _ s

theorem exec_movhi (d : Reg) (n8 : BitVec 8) (s : State) : exec (.movhi d n8) s =
    .next { s with regs := s.regs.set d (withHighByte n8 (s.readReg d)), pc := s.pc + 1#16 } := writeAndAdvance_eq d _ s

/-- MOVHI after a write to its own register puts the high byte onto the word just written, and of the two writes its own stays. -/
theorem exec_movhi_after_write (d : Reg) (n8 : BitVec 8) (v : Word) (s : State) :
    exec (.movhi d n8) (s.writeReg d v).advance =
      .next { s with regs := s.regs.set d (withHighByte n8 v), pc := s.pc + 2#16 } := by
  have pc : s.pc + 1#16 + 1#16 = s.pc + 2#16 := BitVec.add_assoc s.pc 1#16 1#16
  rw [exec_movhi, readReg_advance, readReg_writeReg_self, advance_regs, writeReg_regs, Bank.set_set, advance_pc, writeReg_pc, pc]
  rfl

/-! ### The obligations -/

/-- Settles O32: MOVHI finds the low byte that MOVI wrote, and keeps it. -/
theorem moviThenMovhiLoadsAnyConstant : Obligations.MoviThenMovhiLoadsAnyConstant := by
  intro d c s
  have loaded := exec_movhi_after_write d (c.extractLsb' 8 8) (sext8 (c.extractLsb' 0 8)) s
  rw [withHighByte_sext8_bytes] at loaded
  exact ⟨_, exec_movi d _ s, loaded⟩

/-- Settles O30: the form is the statement of O54, and a hexadecimal constant is cut to 8 bits, not checked. -/
theorem moviWritesN8SignExtended : Obligations.MoviWritesN8SignExtended := fun d n8 s =>
  ⟨isForm_encode fun symbols here => everyInstructionHasItsStatement symbols here (.movi d n8),
    fun symbols here c => assemble_movi symbols here d (.hex c), _, toInt_sext8 n8, lowByte_sext8 n8, exec_movi d n8 s⟩

/-- Settles O31: the form is the statement of O54, and the word written is the new high byte before the old low byte. -/
theorem movhiReplacesTheHighByte : Obligations.MovhiReplacesTheHighByte := fun d n8 s =>
  ⟨isForm_encode fun symbols here => everyInstructionHasItsStatement symbols here (.movhi d n8),
    _, highByte_withHighByte n8 _, lowByte_withHighByte n8 _, exec_movhi d n8 s⟩

end Sys2Proof.Machine
end

section
/-! PROOFS. The family of 46_io.md: IN and OUT, and the output ports against the trace of outputs. -/

namespace Sys2Proof.Machine

/-! ### The output ports hold their last values -/

/-- The last value for a port once the trace has gained a pair: that pair's value if it is the port's own, else the one it was. -/
theorem lastOutput_append_singleton (p q : Port) (v : Word) (trace : List (Port × Word)) :
    lastOutput p (trace ++ [(q, v)]) = if q = p then some v else lastOutput p trace := by
  induction trace with
  | nil => rfl
  | cons entry rest ih =>
    rw [List.cons_append, lastOutput, ih]
    by_cases same : q = p
    · rw [if_pos same, if_pos same]
    · rw [if_neg same, if_neg same, lastOutput]

/-- An output becomes the last value of the port it writes, and leaves the other ports and their last values as they were. -/
theorem portOut_keeps_outputsFollowTrace {s : State} (follows : s.outputsFollowTrace) (q : Port) (v : Word) :
    (s.portOut q v).outputsFollowTrace := by
  intro p w separate last
  rw [portOut_outTrace, lastOutput_append_singleton] at last
  by_cases same : q = p
  · subst same
    rw [if_pos rfl] at last
    rw [outputPort_portOut_self, Option.some.inj last]
  · rw [if_neg same] at last
    rw [outputPort_portOut_of_ne s v (Ne.symm same)]
    exact follows p w separate last

/-- No instruction breaks the agreement of output ports and trace: only OUT reaches either, and it changes them together. -/
theorem exec_keeps_outputsFollowTrace {i : Instr} {s t : State} (h : exec i s = .next t) (follows : s.outputsFollowTrace) :
    t.outputsFollowTrace := by
  obtain ⟨d, v, rfl⟩ | ⟨b, a, n6, -, rfl⟩ | ⟨b, p, -, rfl⟩ | ⟨b, n8, -, rfl⟩ | ⟨b, n8, -, rfl⟩ := exec_next_cases h
  · exact follows
  · exact follows
  · exact portOut_keeps_outputsFollowTrace follows p (s.readReg b)
  · exact follows
  · exact follows

/-- The environment's turn does not break it: it reaches neither the trace nor an output port apart from its input port. -/
theorem environmentTurn_keeps_outputsFollowTrace {s : State} (follows : s.outputsFollowTrace) :
    s.environmentTurn.outputsFollowTrace := by
  intro p v separate last
  rw [aliasedPort_environmentTurn] at separate
  rw [outputPort_environmentTurn_of_separate separate]
  exact follows p v separate last

/-- Settles O48: a step is an instruction and at most a turn of the environment, and both keep the agreement. -/
theorem stepKeepsOutputsAtTheirLastValue : Obligations.StepKeepsOutputsAtTheirLastValue := by
  intro s u follows stepped
  obtain ⟨i, t, -, executed, rfl | rfl⟩ := step_next_exec stepped
  · exact environmentTurn_keeps_outputsFollowTrace (exec_keeps_outputsFollowTrace executed follows)
  · exact exec_keeps_outputsFollowTrace executed follows

/-! ### Each instruction on its own -/

/-- An output leaves the input port of every other address as it was, also where the port written is one register with its own
input port (20_memory.md R69). -/
theorem portIn_portOut_of_ne (s : State) {p q : Port} (v : Word) (ne : q ≠ p) : (s.portOut p v).portIn q = s.portIn q := by
  cases aliased : s.aliasedPort p with
  | false => exact portIn_portOut_of_separate s p q v aliased
  | true =>
    rw [State.portIn, portOut_input, if_pos aliased, Bank.get_set_of_ne _ _ ne, State.portIn]

/-- Settles O33: the form is the statement of O54, and the word written is the one the input port holds. -/
theorem inReadsTheInputPort : Obligations.InReadsTheInputPort := fun d p s =>
  ⟨isForm_encode fun symbols here => everyInstructionHasItsStatement symbols here (.inp d p), exec_inp d p s⟩

/-- Settles O34: the form is the statement of O54, and the ports after OUT are those after a write to the one port. -/
theorem outWritesTheOutputPort : Obligations.OutWritesTheOutputPort := by
  intro b p s
  refine ⟨isForm_encode fun symbols here => everyInstructionHasItsStatement symbols here (.out b p),
    _, exec_out b p s, rfl, ?_, fun q other => ⟨?_, ?_⟩, fun separate => ?_⟩
  · exact outputPort_portOut_self s p (s.readReg b)
  · exact outputPort_portOut_of_ne s (s.readReg b) other
  · exact portIn_portOut_of_ne s (s.readReg b) other
  · rw [advance_input, portOut_input, separate, if_neg Bool.false_ne_true]

end Sys2Proof.Machine
end

section
/-! PROOFS. The family of 60_exceptions.md: every instruction completes, and a step faults at the unused encodings alone. -/

namespace Sys2Proof

/-- A well-formed word by the masks of 30_encoding.md R103 to R105, as `UnusedEncodingsAreRefusedByName` writes them. -/
theorem Word.wellFormed_iff (notBbb : NotBbbNonzero) (w : Word) :
    w.wellFormed notBbb = true ↔ ¬ w.getLsbD 15 = true ∧
      ¬ (w &&& 0xF038#16 = 0x1010#16 ∨ w &&& 0xF038#16 = 0x1030#16 ∨ w &&& 0xF038#16 = 0x1038#16) ∧
      (notBbb = .ignore ∨ ¬ (w &&& 0xF038#16 = 0x0018#16 ∧ w &&& 0x0007#16 ≠ 0#16)) := by
  simp [Word.wellFormed, Word.opcodeUnused, Word.compareFunctionUnused, Word.notSourceNonzero, and_assoc, imp_iff_not_or]

/-- The words that decode are the well-formed ones: `UnusedEncodingsAreRefusedByName`, branch by branch. -/
theorem decode_ok_iff_wellFormed (notBbb : NotBbbNonzero) (w : Word) :
    (∃ i, decode notBbb w = .ok i) ↔ w.wellFormed notBbb = true := by
  have outcome := unusedEncodingsAreRefusedByName notBbb w
  rw [Word.wellFormed_iff]
  split_ifs at outcome with high compare notSource
  · simp [outcome, high]
  · simp [outcome, compare]
  · obtain ⟨refused, ignored⟩ := outcome
    cases notBbb with
    | reserved => simp [refused, notSource]
    | ignore => exact iff_of_true ⟨_, ignored⟩ ⟨high, compare, .inl rfl⟩
  · exact iff_of_true outcome ⟨high, compare, .inr notSource⟩

end Sys2Proof

namespace Sys2Proof.Machine

/-- Settles O39: each of the three ends of an instruction answers a next state. -/
theorem everyInstructionCompletes : Obligations.EveryInstructionCompletes := by
  intro i s
  cases i with
  | bz | bnz => exact ⟨_, branchTo_eq _ _ s⟩
  | st | out => exact ⟨_, goOn_eq _⟩
  | _ => exact ⟨_, writeAndAdvance_eq _ _ s⟩

/-- A step whose word encodes no instruction is the fault of 30_encoding.md R106, whatever the reason it is unused. -/
theorem step_of_decode_error {s : State} {r : Reserved} (h : decode s.config.notBbbNonzero s.fetch = .error r) :
    step s = .fault (.illegalInstruction s.pc s.fetch) := by
  rw [step, h]

/-- Settles O38: a well-formed word decodes and its instruction completes; any other is refused by the decoder. -/
theorem stepHasExactlyTwoKindsOfOutcome : Obligations.StepHasExactlyTwoKindsOfOutcome := by
  intro s
  split
  next used =>
    obtain ⟨i, decoded⟩ := (decode_ok_iff_wellFormed _ _).mpr used
    obtain ⟨t, executed⟩ := everyInstructionCompletes i s
    exact ⟨_, stepRunsTheDecodedInstruction s t i decoded executed⟩
  next unused =>
    cases decoded : decode s.config.notBbbNonzero s.fetch with
    | ok i => exact absurd ((decode_ok_iff_wellFormed _ _).mp ⟨i, decoded⟩) unused
    | error r => exact step_of_decode_error decoded

end Sys2Proof.Machine
end

section
/-! PROOFS. The family of 70_reset_and_hazards.md: the image in memory, the start of a run, and its end by convention. -/

namespace Sys2Proof.Machine

/-! ### The image -/

/-- The last entry of an image is the last one written. -/
theorem ofImage_append_singleton (image : List (Word × Word)) (entry : Word × Word) :
    Memory.ofImage (image ++ [entry]) = (Memory.ofImage image).write entry.1 entry.2 := by
  rw [Memory.ofImage, List.foldl_append, List.foldl_cons, List.foldl_nil, Memory.ofImage]

/-- Settles O51, by induction on the image from its end: the last entry reads as it was written, and its write leaves the address of
every other entry alone. -/
theorem imageReadsAsItSays : Obligations.ImageReadsAsItSays := by
  intro image a v distinct listed
  induction image using List.reverseRecOn with
  | nil => cases listed
  | append_singleton image entry ih =>
    rw [List.map_append, List.map_singleton, List.nodup_append_comm, List.singleton_append, List.nodup_cons] at distinct
    obtain ⟨fresh, distinct⟩ := distinct
    rw [ofImage_append_singleton]
    obtain earlier | last := List.mem_append.mp listed
    · have elsewhere : a ≠ entry.1 := fun same => fresh (same ▸ List.mem_map_of_mem (f := Prod.fst) earlier)
      rw [read_write_of_ne _ _ elsewhere]
      exact ih distinct earlier
    · obtain rfl := List.mem_singleton.mp last
      exact read_write_self (wf_ofImage image) a v

/-! ### The end of a run -/

/-- A branch with N8 = 0 has itself as its target. -/
theorem branchTarget_zero (s : State) : branchTarget s 0x00#8 = s.pc := BitVec.add_zero s.pc

/-- Only N8 = 0 makes a branch its own target: the low byte of its displacement is N8. -/
theorem eq_zero_of_branchTarget_eq_pc {s : State} {n8 : BitVec 8} (self : s.pc = branchTarget s n8) : n8 = 0x00#8 := by
  have displacement : sext8 n8 = 0x0000#16 := left_eq_add.mp self
  rw [← lowByte_sext8 n8, displacement]
  rfl

/-- A branch taken to itself leaves the state as it is. -/
theorem setPc_branchTarget_zero (s : State) : s.setPc (branchTarget s 0x00#8) = s := by
  rw [branchTarget_zero, State.setPc]

/-- Settles O52: a step to the same state does not advance the PC, so it is a taken branch to itself; and such a branch, with no turn
of the environment after it, is a step to the same state. -/
theorem fixedPointsAreTakenSelfBranches : Obligations.FixedPointsAreTakenSelfBranches := by
  refine fun s => ⟨fun ended => ?_, ?_⟩
  · have notAdvanced : s.pc ≠ s.pc + 1#16 := by bv_omega
    obtain ⟨b, n8, branch, self⟩ := onlyTakenBranchesDivertThePc s s ended notAdvanced
    obtain rfl := eq_zero_of_branchTarget_eq_pc self
    exact ⟨b, branch⟩
  · rintro ⟨b, ⟨fetched, zero⟩ | ⟨fetched, nonzero⟩⟩
    · have taken := exec_bz_of_zero 0x00#8 zero
      rw [setPc_branchTarget_zero] at taken
      exact step_of_fetch_of_no_turn fetched taken rfl
    · have taken := exec_bnz_of_nonzero 0x00#8 nonzero
      rw [setPc_branchTarget_zero] at taken
      exact step_of_fetch_of_no_turn fetched taken rfl

/-! ### Start and reset -/

/-- A start state has made no output, so its trace asks nothing of the ports. -/
theorem start_outputsFollowTrace (p : StartParams) : (State.start p).outputsFollowTrace := by
  intro q v _ last
  rw [start_outTrace] at last
  cases last

/-- Settles O49: the memory of a start state is its image, and the state after reset is a start state. -/
theorem startMeetsTheInvariants : Obligations.StartMeetsTheInvariants :=
  ⟨fun p canonical => ⟨canonical, start_outputsFollowTrace p⟩, wf_reset, start_outputsFollowTrace StartParams.modelsChoice⟩

theorem readReg_reset (r : Reg) : State.reset.readReg r = 0x0000#16 := Bank.get_fill _ r

theorem memRead_reset (a : Word) : State.reset.memRead a = 0x0000#16 := read_empty a

theorem portIn_reset (p : Port) : State.reset.portIn p = 0x0000#16 := Bank.get_fill _ p

theorem aliasedPort_reset (p : Port) : State.reset.aliasedPort p = false := Bank.get_fill false p

theorem outputPort_reset (p : Port) : State.reset.outputPort p = 0x0000#16 := by
  rw [State.outputPort, aliasedPort_reset, if_neg Bool.false_ne_true]
  exact Bank.get_fill _ p

/-- Settles O53: a start state field by field, and the parameters of the reset are filled with zeros. -/
theorem startTakesItsParametersAndResetIsZero : Obligations.StartTakesItsParametersAndResetIsZero :=
  ⟨fun p => ⟨start_pc p, start_regs p, start_mem p, start_input p, start_output p, start_config p⟩,
    start_pc StartParams.modelsChoice, readReg_reset, memRead_reset,
    fun p => ⟨portIn_reset p, outputPort_reset p, aliasedPort_reset p⟩,
    congrArg Config.notBbbNonzero (start_config StartParams.modelsChoice), start_outTrace StartParams.modelsChoice,
    start_envTurns StartParams.modelsChoice⟩

end Sys2Proof.Machine
end
